-- ==== Sys2Proof/Word.lean ====
section
/-! DEFINITION. The word types of the base32 codec block and the two data types that the decoder and the
machine share: the pair of port words a host presents as one command (rules R30, R70), and the four causes of a
contract violation (rules R170, R172). -/

namespace Sys2Proof

/-- One byte: a data byte, or one symbol's ASCII code (rule R12). -/
abbrev Byte := BitVec 8

/-- A 64-bit port word, DIN or RDATA (rule R6: DIN_WIDTH and RDATA_WIDTH are 64). -/
abbrev Word := BitVec 64

/-- The 8-bit command word CMD (rules R6 and R70: CMD_WIDTH is 8). -/
abbrev CmdWord := BitVec 8

/-- A 5-bit alphabet index (rule R6: SYMBOL_BITS is 5). -/
abbrev Idx := BitVec 5

/-- What the host presents on the input ports for one command: CMD with its operand word DIN (rules R30, R70). -/
structure Request where
  cmd : CmdWord
  din : Word
  deriving DecidableEq, Repr

/-- The four contract violations of rules R170 and R172. The decoder can name the first two only (rule R77). -/
inductive FaultCause where
  /-- Code 2: the command word spells no command. -/
  | illegalCmd
  /-- Code 3: a group command's count is outside its legal range. -/
  | badCount
  /-- Code 4: a command is out of sequence for the stream protocol. -/
  | seqErr
  /-- Code 5: the stream would grow past the position counter's range. -/
  | posOvf
  deriving DecidableEq, Repr

end Sys2Proof
end

