-- ==== Sys2Proof/Syntax.lean ====
section
/-! DEFINITION. The eight commands of rule R71, one constructor per row of spec/opcode_table.json. A constructor
carries the operands its command reads (rules R72, R73): the count CNT of a group command as the 4-bit field it
is, DIN whole for a group command (its ignored lanes included), and the integer n of a length command. STAT, SENC,
SDEC and FIN ignore DIN entirely and carry nothing (log entry 5). -/

namespace Sys2Proof

/-- One command of the block (rule R71). -/
inductive Instr where
  /-- STAT: read the stream position and status (rule R152). -/
  | stat
  /-- SENC: start an encode stream (rule R106). -/
  | senc
  /-- SDEC: start a decode stream (rule R129). -/
  | sdec
  /-- EBLK: encode one group of `cnt` bytes, lanes 0..cnt-1 of `din` (rule R108). -/
  | eblk (cnt : BitVec 4) (din : Word)
  /-- DBLK: decode one group of `cnt` symbols, lanes 0..cnt-1 of `din` (rule R130). -/
  | dblk (cnt : BitVec 4) (din : Word)
  /-- FIN: finish the stream and return its result (rule R150). -/
  | fin
  /-- LENE: the encoded length of `n` bytes (rule R96). -/
  | lene (n : Word)
  /-- LENB: the buffer length of `n` bytes (rule R97). -/
  | lenb (n : Word)
  deriving DecidableEq, Repr

end Sys2Proof
end

