-- ==== Sys2Proof/WellFormed.lean ====
section
/-! DEFINITION. Well-formed commands: the counts that rule R72 calls legal. Every other operand is legal at every
value (rule R173). -/

namespace Sys2Proof

/-- The legal counts of EBLK are 1..5 (rule R72). -/
def legalEncCount (cnt : BitVec 4) : Bool := decide (1 ≤ cnt.toNat ∧ cnt.toNat ≤ 5)

/-- The legal counts of DBLK are 1..8 (rule R72). -/
def legalDecCount (cnt : BitVec 4) : Bool := decide (1 ≤ cnt.toNat ∧ cnt.toNat ≤ 8)

/-- A command is well formed when its count, if it has one, is legal (rule R72). -/
def Instr.wellFormed : Instr → Bool
  | .stat => true
  | .senc => true
  | .sdec => true
  | .eblk cnt _ => legalEncCount cnt
  | .dblk cnt _ => legalDecCount cnt
  | .fin => true
  | .lene _ => true
  | .lenb _ => true

end Sys2Proof
end

