-- ==== Sys2Proof/Decode.lean ====
section
/-! DEFINITION. The command decoder of rule R77, total on all 256 command words and naming the fault code of each
word it rejects, and after it the encoder, written from the encodings of rules R70, R71 and R78. -/

namespace Sys2Proof

/-- OPC, bits 7:4 of the command word (rule R70). -/
def opcField (cmd : CmdWord) : BitVec 4 := cmd.extractLsb' 4 4

/-- CNT, bits 3:0 of the command word (rule R70). -/
def cntField (cmd : CmdWord) : BitVec 4 := cmd.extractLsb' 0 4

/-- A command whose CNT must be 0, else ILLEGAL_CMD (rules R72 and R77). -/
def withZeroCount (cnt : BitVec 4) (i : Instr) : Except FaultCause Instr :=
  if cnt = 0 then .ok i else .error .illegalCmd

/-- A group command whose count must be legal, else BAD_COUNT (rules R72 and R77). -/
def withLegalCount (i : Instr) : Except FaultCause Instr :=
  if i.wellFormed then .ok i else .error .badCount

/-- Rule R77: the total command decoder, from CMD to a command or a fault code. The command is given its operand
word DIN here, since every command is one CMD word and one DIN word (rule R70). -/
def decodeCmd (cmd : CmdWord) (din : Word) : Except FaultCause Instr :=
  match (opcField cmd).toNat with
  | 0 => withZeroCount (cntField cmd) .stat
  | 1 => withZeroCount (cntField cmd) .senc
  | 2 => withZeroCount (cntField cmd) .sdec
  | 3 => withLegalCount (.eblk (cntField cmd) din)
  | 4 => withLegalCount (.dblk (cntField cmd) din)
  | 5 => withZeroCount (cntField cmd) .fin
  | 6 => withZeroCount (cntField cmd) (.lene din)
  | 7 => withZeroCount (cntField cmd) (.lenb din)
  | _ => .error .illegalCmd

/-- The decoder on a presented pair of port words. -/
def decodeRequest (q : Request) : Except FaultCause Instr := decodeCmd q.cmd q.din

/-- CMD = OPC<<4 | CNT (rules R70 and R71). -/
def cmdWord (opc cnt : BitVec 4) : CmdWord := opc ++ cnt

/-- The assembled form `CMD DIN` of a command (rule R78): DIN is 0 for a command that ignores it. -/
def encode : Instr → Request
  | .stat => { cmd := cmdWord 0 0, din := 0 }
  | .senc => { cmd := cmdWord 1 0, din := 0 }
  | .sdec => { cmd := cmdWord 2 0, din := 0 }
  | .eblk cnt din => { cmd := cmdWord 3 cnt, din := din }
  | .dblk cnt din => { cmd := cmdWord 4 cnt, din := din }
  | .fin => { cmd := cmdWord 5 0, din := 0 }
  | .lene n => { cmd := cmdWord 6 0, din := n }
  | .lenb n => { cmd := cmdWord 7 0, din := n }

/-- The port words of a table word: of its low `nbits` bits, bits 7:0 are CMD, and the operand word's bits count on
from bit 8 (log entry 6). -/
def requestOfTableWord (nbits w : Nat) : Request :=
  { cmd := BitVec.ofNat 8 (w % 2 ^ nbits), din := BitVec.ofNat 64 (w % 2 ^ nbits / 256) }

/-- The command this decoder reads from a word numbered as spec/opcode_table.json numbers it; none where the word
is rejected. -/
def decodeTableWord (nbits w : Nat) : Option Instr :=
  match decodeRequest (requestOfTableWord nbits w) with
  | .ok i => some i
  | .error _ => none

end Sys2Proof
end

