-- ==== Sys2Proof/Config.lean ====
section
/-! DEFINITION. The implementation parameters of rule R6. Every one has a fixed value: the spec leaves no
parameter open and no result undefined, so there is no free value here. The widths CMD_WIDTH, DIN_WIDTH,
RDATA_WIDTH, RSTAT_WIDTH and POS_WIDTH are the types of Word.lean and Machine/State.lean. -/

namespace Sys2Proof.Config

/-- GROUP_BYTES: a full encoder group is 5 bytes (rule R6). -/
def groupBytes : Nat := 5

/-- GROUP_SYMBOLS: a full decoder group is 8 symbols (rule R6). -/
def groupSymbols : Nat := 8

/-- ALPHABET_SIZE: the alphabet has 32 symbols (rule R6). -/
def alphabetSize : Nat := 32

/-- POS_MAX: a stream holds at most 2^64 - 1 input units (rules R6 and R21). -/
def posMax : Nat := 2 ^ 64 - 1

end Sys2Proof.Config
end

