-- ==== Sys2Proof/Machine/Alphabet.lean ====
section
/-! DEFINITION. The two ROM tables, ALPHA (rule R31) and INV (rule R32). They are hardwired, valid from reset and never
written (rule R33), so they are constants of the model and no part of State. Their codes are the ASCII codes the
spec's rule R13 gives. -/

namespace Sys2Proof.Machine

/-- The code column of rule R31, index 0 first. -/
def alphaTable : List Byte :=
  [0x30, 0x31, 0x32, 0x33, 0x34, 0x35, 0x36, 0x37, 0x38, 0x39] ++
  [0x61, 0x62, 0x63, 0x64, 0x65, 0x66, 0x67, 0x68] ++
  [0x6A, 0x6B, 0x6D, 0x6E] ++
  [0x70, 0x71, 0x72, 0x73, 0x74] ++
  [0x76, 0x77, 0x78, 0x79, 0x7A]

theorem alphaTable_length : alphaTable.length = Config.alphabetSize := rfl

/-- ALPHA(v): the symbol of a 5-bit index (rules R9 and R31). -/
def alpha (v : Idx) : Byte :=
  alphaTable[v.toNat]'(by rw [alphaTable_length]; exact v.isLt)

/-- One row of rule R32's table that has an entry `some`: the bytes `lo` to `hi` stand for the indices from `base`
upwards. -/
structure InvRow where
  lo : Nat
  hi : Nat
  base : Nat
  deriving DecidableEq, Repr

/-- The rows `some` of rule R32's table, in its order. A byte of no row has the entry `none`. -/
def invRows : List InvRow :=
  [{ lo := 0x30, hi := 0x39, base := 0 },
   { lo := 0x61, hi := 0x68, base := 10 },
   { lo := 0x6A, hi := 0x6A, base := 18 },
   { lo := 0x6B, hi := 0x6B, base := 19 },
   { lo := 0x6D, hi := 0x6D, base := 20 },
   { lo := 0x6E, hi := 0x6E, base := 21 },
   { lo := 0x70, hi := 0x74, base := 22 },
   { lo := 0x76, hi := 0x7A, base := 27 }]

/-- INV(c): the 5-bit index of a symbol, or `none` for a byte outside the alphabet (rules R9 and R32). -/
def inv (c : Byte) : Option Idx :=
  (invRows.find? fun r => decide (r.lo ≤ c.toNat ∧ c.toNat ≤ r.hi)).map
    fun r => BitVec.ofNat 5 (r.base + (c.toNat - r.lo))

end Sys2Proof.Machine
end

