-- ==== Sys2Proof/Machine/State.lean ====
section
/-! DEFINITION. The state of one unit: the stream registers MODE, POS, FINAL, ERR, EPOS, EBYTE, the fault registers
FAULT and FCAUSE, and the response registers RSTAT and RDATA (rule R20), which are all the registers the block has.
Beside them stands one field of the model's own, `host`: what the host goes on to do at the ports (log entry 1).
The block has no memory, no address space, no program counter and no general registers (rules R20, R21, R38), so no
field stands for one. The values a field can never hold (MODE = 3, an FCAUSE outside 0, 2..5, a CODE above 6) have
no spelling in its type (93_implementation_defined.md U10; log entry 4). -/

namespace Sys2Proof.Machine

/-- MODE, the kind of stream in progress (rule R22). -/
inductive Mode where
  /-- 0: no stream is open. -/
  | idle
  /-- 1: an encode stream is open. -/
  | enc
  /-- 2: a decode stream is open. -/
  | dec
  deriving DecidableEq, Repr

/-- RSTAT.CODE, the result codes of rule R170. -/
inductive Code where
  /-- 0 OK. -/
  | ok
  /-- 1 INVALID_INPUT: a data error, recoverable, no fault (rule R171). -/
  | invalidInput
  /-- 2, 3, 4 or 5: a contract violation. -/
  | violation (c : FaultCause)
  /-- 6 FAULTED: an earlier fault is not yet cleared by reset (rule R175). -/
  | faulted
  deriving DecidableEq, Repr

/-- One thing the host does at the ports (rules R204 and R206). -/
inductive HostAction where
  /-- Present a command and wait for its response (rule R204). -/
  | command (q : Request)
  /-- Assert RST (rule R200), between commands or while `outstanding` is presented and not yet answered. -/
  | rst (outstanding : Option Request)
  deriving DecidableEq, Repr

structure State where
  /-- MODE, 2 bits (rule R22). -/
  mode : Mode
  /-- POS, 64 bits: the input units the current stream has accepted (rule R23). -/
  pos : Word
  /-- FINAL, 1 bit: the stream has accepted a final partial group (rule R24). -/
  final : Bool
  /-- ERR, 1 bit: the sticky error flag of a decode stream (rule R25). -/
  err : Bool
  /-- EPOS, 64 bits: the position of the first invalid symbol (rule R26). -/
  epos : Word
  /-- EBYTE, 8 bits: the first invalid symbol's byte (rule R26). -/
  ebyte : Byte
  /-- FAULT, 1 bit: a contract violation has happened (rule R29). -/
  fault : Bool
  /-- FCAUSE, 4 bits: the first violation's cause, `none` standing for 0 (rule R29). -/
  fcause : Option FaultCause
  /-- RSTAT, 32 bits: the status of the last command (rules R27 and R28). -/
  rstat : BitVec 32
  /-- RDATA, 64 bits: the data of the last command (rule R27). -/
  rdata : Word
  /-- The model's own: what the host does next at the ports, oldest first (log entry 1). -/
  host : List HostAction
  deriving DecidableEq, Repr

/-- Rules R37 and R200: every register at its reset value. Nothing has been presented at the ports (rule R201). -/
def State.reset : State where
  mode := .idle
  pos := 0
  final := false
  err := false
  epos := 0
  ebyte := 0
  fault := false
  fcause := none
  rstat := 0
  rdata := 0
  host := []

/-- The machine-stopping faults: there is none. Every contract violation of the block leads to a next state, by
the fault action of rule R174, in which the unit answers FAULTED until it is reset (rule R175), and a violating
command word has a defined outcome too (rule R75). No operation can raise this type's faults: safe, since it has no
member (log entry 7). -/
inductive Fault
  deriving DecidableEq, Repr

/-- The refusals of the model. -/
inductive Refusal where
  /-- Raised by an arm of exec whose instruction has no meaning in the model yet. No arm raises it: every command of
  rule R71 is modelled. Safe: a refused instruction has no next state, so nothing false can be proved of one. -/
  | notModelled (mnemonic : String)
  deriving DecidableEq, Repr

/-- What one step or one command answers. -/
abbrev Result := Host.Outcome State Fault Refusal

end Sys2Proof.Machine
end

