-- ==== Sys2Proof/Machine/Flags.lean ====
section
/-! DEFINITION. The codings of MODE, CODE and FCAUSE (rules R22, R29, R170), the layout of RSTAT (rules R27 and R28), and
the accessors of its fields. -/

namespace Sys2Proof.Machine

/-- MODE's 2-bit value (rule R22). -/
def modeBits : Mode → BitVec 2
  | .idle => 0
  | .enc => 1
  | .dec => 2

/-- A violation's 4-bit code (rule R170). -/
def causeBits : FaultCause → BitVec 4
  | .illegalCmd => 2
  | .badCount => 3
  | .seqErr => 4
  | .posOvf => 5

/-- FCAUSE's 4-bit value: 0 while there is no fault (rule R29). -/
def fcauseBits : Option FaultCause → BitVec 4
  | none => 0
  | some c => causeBits c

/-- CODE's 4-bit value (rule R170). -/
def codeBits : Code → BitVec 4
  | .ok => 0
  | .invalidInput => 1
  | .violation c => causeBits c
  | .faulted => 6

/-- Rule R27's RSTAT: the fields given to `respond`, and the flags of the state `s` that the command leaves behind. -/
def packStatus (code : Code) (kcnt : BitVec 4) (ebyte : Byte) (len64 : Bool) (s : State) : BitVec 32 :=
  (fcauseBits s.fcause ++ BitVec.ofBool s.final ++ modeBits s.mode ++ BitVec.ofBool s.fault ++ BitVec.ofBool s.err
    ++ BitVec.ofBool len64 ++ ebyte ++ kcnt ++ codeBits code).setWidth 32

/-- RSTAT.CODE, bits 3:0 (rule R28). -/
def statusCode (w : BitVec 32) : BitVec 4 := w.extractLsb' 0 4

/-- RSTAT.KCNT, bits 7:4 (rule R28). -/
def statusKcnt (w : BitVec 32) : BitVec 4 := w.extractLsb' 4 4

/-- RSTAT.EBYTE, bits 15:8 (rule R28). -/
def statusEbyte (w : BitVec 32) : Byte := w.extractLsb' 8 8

/-- RSTAT.LEN64, bit 16 (rule R28). -/
def statusLen64 (w : BitVec 32) : Bool := w.getLsbD 16

/-- RSTAT.ERR, bit 17 (rule R28). -/
def statusErr (w : BitVec 32) : Bool := w.getLsbD 17

/-- RSTAT.FAULT, bit 18 (rule R28). -/
def statusFault (w : BitVec 32) : Bool := w.getLsbD 18

/-- RSTAT.MODE, bits 20:19 (rule R28). -/
def statusMode (w : BitVec 32) : BitVec 2 := w.extractLsb' 19 2

/-- RSTAT.FINAL, bit 21 (rule R28). -/
def statusFinal (w : BitVec 32) : Bool := w.getLsbD 21

/-- RSTAT.FCAUSE, bits 25:22 (rule R28). -/
def statusFcause (w : BitVec 32) : BitVec 4 := w.extractLsb' 22 4

/-- RSTAT[31:26], reserved, always 0 (rule R28). -/
def statusReserved (w : BitVec 32) : BitVec 6 := w.extractLsb' 26 6

/-- Bits 63:0 of a 65-bit length result (rule R95). -/
def lengthLow (L : Nat) : Word := BitVec.ofNat 64 L

/-- Bit 64 of a 65-bit length result, for LEN64 (rule R95). -/
def lengthBit64 (L : Nat) : Bool := L.testBit 64

end Sys2Proof.Machine
end

