-- ==== Sys2Proof/Machine/Ops.lean ====
section
/-! DEFINITION. The named operations over the registers. First the plain register writes, one definition per group of
registers that the spec writes together; then the response (rule R27); then the one exception of the block, the
fault action (rule R174), and the answer of a faulted unit (rule R175). There is no return from a fault but reset
(rule R177). -/

namespace Sys2Proof.Machine

/-- Write RSTAT and RDATA. -/
def State.setResponse (s : State) (status : BitVec 32) (data : Word) : State :=
  { s with rstat := status, rdata := data }

/-- Open, or with `idle` close, a stream: MODE as given, and every other stream register cleared (rules R106, R129
and R150). -/
def State.setStream (s : State) (m : Mode) : State :=
  { s with mode := m, pos := 0, final := false, err := false, epos := 0, ebyte := 0 }

/-- POS <- POS + r, and FINAL as given: the stream accepts a group (rules R108 and R132). -/
def State.acceptGroup (s : State) (r : Nat) (isFinal : Bool) : State :=
  { s with pos := s.pos + BitVec.ofNat 64 r, final := isFinal }

/-- ERR <- 1, EPOS <- p and EBYTE <- c, which are only ever written together (rules R26 and R131). -/
def State.setError (s : State) (p : Word) (c : Byte) : State :=
  { s with err := true, epos := p, ebyte := c }

/-- FAULT <- 1 and FCAUSE <- c (rule R174). -/
def State.setFault (s : State) (c : FaultCause) : State :=
  { s with fault := true, fcause := some c }

/-- Replace what the host still has to do. -/
def State.setHost (s : State) (h : List HostAction) : State := { s with host := h }

/-- Rule R27: `respond`. The state given is the one the command's other writes have made, so RSTAT shows the flags the
command leaves behind. -/
def respond (code : Code) (kcnt : Nat) (ebyte : Byte) (len64 : Bool) (data : Word) (s : State) : State :=
  s.setResponse (packStatus code (BitVec.ofNat 4 kcnt) ebyte len64 s) data

/-- Rule R174, the fault action `raise Fault(c)`: precise, it writes FAULT, FCAUSE and the response, and nothing
else. -/
def raiseFault (c : FaultCause) (s : State) : State :=
  respond (.violation c) 0 0 false 0 (s.setFault c)

/-- Rule R175: a faulted unit answers FAULTED and changes no other register. -/
def respondFaulted (s : State) : State := respond .faulted 0 0 false 0 s

/-- The first check of every command (rule R176): in a faulted unit the answer is FAULTED, whatever the command. -/
def unlessFaulted (s : State) (r : Result) : Result :=
  if s.fault then .next (respondFaulted s) else r

/-- Rule R176's POS check: the group of r units would carry POS past POS_MAX. -/
def overflows (s : State) (r : Nat) : Bool := decide (Config.posMax < s.pos.toNat + r)

/-- Reset (rule R200): every register at its reset value, the host's further actions as they are. -/
def resetUnit (s : State) : State := State.reset.setHost s.host

end Sys2Proof.Machine
end

