-- ==== Sys2Proof/Machine/Length.lean ====
section
/-! DEFINITION. The length calculator: the closed forms of rules R90 to R93 on unbounded naturals, and the commands LENE
(rule R96) and LENB (rule R97). -/

namespace Sys2Proof.Machine

/-- F of rule R90: the symbols of a partial group of s bytes; s is a remainder mod 5. -/
def partialSymbols (s : Nat) : Nat := [0, 2, 4, 5, 7].getD s 0

/-- Rule R90: the exact number of symbols for n bytes. -/
def encodedLen (n : Nat) : Nat := 8 * (n / 5) + partialSymbols (n % 5)

/-- ceil_div of rule R8. -/
def ceilDiv (a b : Nat) : Nat := (a + b - 1) / b

/-- Rule R91: the buffer length for n bytes. -/
def bufferLen (n : Nat) : Nat := ceilDiv n 5 * 8

/-- Rule R92: the number of bytes a decode of m symbols yields. -/
def decodedLen (m : Nat) : Nat := m * 5 / 8

/-- kEnc of rule R93: the significant symbols of a group of r bytes. -/
def kEnc (r : Nat) : Nat := if r = 5 then 8 else partialSymbols r

/-- kDec of rule R93: the kept bytes of a group of r symbols. -/
def kDec (r : Nat) : Nat := if r = 8 then 5 else 5 * r / 8

/-- The answer of a length query (rules R95 to R97): the 65-bit L in RDATA and LEN64, no other register written. -/
def respondLength (L : Nat) (s : State) : State := respond .ok 0 0 (lengthBit64 L) (lengthLow L) s

/-- LENE (rule R96). -/
def execLene (n : Word) (s : State) : Result :=
  unlessFaulted s (.next (respondLength (encodedLen n.toNat) s))

/-- LENB (rule R97). -/
def execLenb (n : Word) (s : State) : Result :=
  unlessFaulted s (.next (respondLength (bufferLen n.toNat) s))

end Sys2Proof.Machine
end

