-- ==== Sys2Proof/Machine/Operands.lean ====
section
/-! DEFINITION. The operand forms: lanes of a port word (rules R9 and R50), a port word built from lanes, and the
encoder's group assembly with zero-extension (rule R101). -/

namespace Sys2Proof.Machine

/-- The eight lane numbers, in stream order (rule R50). -/
def laneNumbers : List (Fin 8) := [0, 1, 2, 3, 4, 5, 6, 7]

/-- lane(w, j) = w[63-8j : 56-8j]: lane 0 is the most significant byte and the earliest in stream order (rule R50). -/
def lane (w : Word) (j : Fin 8) : Byte := w.extractLsb' (56 - 8 * j.val) 8

/-- The port word whose lane j is `f j`. -/
def packLanes (f : Fin 8 → Byte) : Word := f 0 ++ f 1 ++ f 2 ++ f 3 ++ f 4 ++ f 5 ++ f 6 ++ f 7

/-- The eight lanes of a port word, in stream order. -/
def lanesOf (w : Word) : List Byte := laneNumbers.map (lane w)

/-- DIN of an assembled group line: the listed bytes from lane 0 on, and 0x00 in every other lane (rule R78). -/
def packBytes (bs : List Byte) : Word := packLanes fun j => bs.getD j.val 0

/-- b_j of rule R101: lane j of DIN below the count, and 0x00, the zero-extension, from the count on. -/
def groupByte (din : Word) (r : Nat) (j : Fin 8) : Byte := if j.val < r then lane din j else 0

/-- G of rule R101: the 40-bit group, b0 most significant. -/
def group40 (din : Word) (r : Nat) : BitVec 40 :=
  groupByte din r 0 ++ groupByte din r 1 ++ groupByte din r 2 ++ groupByte din r 3 ++ groupByte din r 4

/-- W of rule R101: the group left-justified in 64 bits, the low 24 bits 0. -/
def leftJustified (g : BitVec 40) : Word := g ++ (0 : BitVec 24)

end Sys2Proof.Machine
end

