-- ==== Sys2Proof/Machine/Decoder.lean ====
section
/-! DEFINITION. The decoder: its datapath as a pure function (rules R120 to R127) and the commands SDEC (rule R129) and
DBLK (rule R130, with the branches of rules R131, R132 and R133). -/

namespace Sys2Proof.Machine

/-- The filler index of rule R123, the index of the alphabet's zero-symbol. -/
def fillerIdx : Idx := 0

/-- v_j of rule R121: the index of lane j below the count, and the filler from the count on. -/
def laneIdx (din : Word) (r : Nat) (j : Fin 8) : Option Idx :=
  if j.val < r then inv (lane din j) else some fillerIdx

/-- Rule R122: the least lane whose symbol is invalid, if there is one. A lane from the count on holds the valid
filler and is never found. -/
def firstInvalid (din : Word) (r : Nat) : Option (Fin 8) :=
  laneNumbers.find? fun j => (laneIdx din r j).isNone

/-- idx_j of rule R124. It is read only where every lane is valid, so the filler given for an invalid lane is
unobservable. -/
def validIdx (din : Word) (r : Nat) (j : Fin 8) : Idx := (laneIdx din r j).getD fillerIdx

/-- An index widened for the shifts of rule R124, none of which exceeds 12 bits before the truncation. -/
def wide (v : Idx) : BitVec 16 := v.setWidth 16

/-- B_i of rule R124, for the eight indices `x`: each formula, truncated to 8 bits. There is no byte from i = 5 on. -/
def assembledByte (x : Fin 8 → Idx) (i : Fin 8) : Byte :=
  match i.val with
  | 0 => (wide (x 0) <<< 3 ||| wide (x 1) >>> 2).setWidth 8
  | 1 => (wide (x 1) <<< 6 ||| wide (x 2) <<< 1 ||| wide (x 3) >>> 4).setWidth 8
  | 2 => (wide (x 3) <<< 4 ||| wide (x 4) >>> 1).setWidth 8
  | 3 => (wide (x 4) <<< 7 ||| wide (x 5) <<< 2 ||| wide (x 6) >>> 3).setWidth 8
  | 4 => (wide (x 6) <<< 5 ||| wide (x 7)).setWidth 8
  | _ => 0

/-- The output word of rule R126: the kept bytes, and 0x00 in every other lane. -/
def keptWord (x : Fin 8 → Idx) (k : Nat) : Word :=
  packLanes fun i => if i.val < k then assembledByte x i else 0

/-- The two results of the decoder datapath (rule R120). -/
inductive DecResult where
  /-- The first invalid lane and its byte. -/
  | err (e : Fin 8) (c : Byte)
  /-- The byte word and the count of kept bytes. -/
  | ok (out : Word) (k : Nat)
  deriving DecidableEq, Repr

/-- Rule R127: the decoder function. -/
def decBlock (din : Word) (r : Nat) : DecResult :=
  match firstInvalid din r with
  | some e => .err e (lane din e)
  | none => .ok (keptWord (validIdx din r) (kDec r)) (kDec r)

/-- SDEC (rule R129): legal in every MODE; it abandons an open stream. -/
def execSdec (s : State) : Result :=
  unlessFaulted s (.next (respond .ok 0 0 false 0 (s.setStream .dec)))

/-- Rule R133: while ERR = 1 the stored error is reported again and nothing is scanned. -/
def reportStoredError (s : State) : State := respond .invalidInput 0 s.ebyte false s.epos s

/-- Rule R131, the invalid branch: lane e of the group is stream position POS + e. -/
def rejectGroup (e : Fin 8) (c : Byte) (s : State) : State :=
  respond .invalidInput 0 c false (s.pos + BitVec.ofNat 64 e.val) (s.setError (s.pos + BitVec.ofNat 64 e.val) c)

/-- Rule R132, the valid branch. -/
def deliverGroup (r : Nat) (out : Word) (k : Nat) (s : State) : State :=
  respond .ok k 0 false out (s.acceptGroup r (decide (r < Config.groupSymbols)))

/-- The last action of DBLK, when every check has passed: scan the group (rule R130). -/
def decodeGroup (r : Nat) (din : Word) (s : State) : State :=
  match decBlock din r with
  | .err e c => rejectGroup e c s
  | .ok out k => deliverGroup r out k s

/-- DBLK (rule R130), its checks in the order of rule R176. -/
def execDblk (cnt : BitVec 4) (din : Word) (s : State) : Result :=
  unlessFaulted s (
    if !legalDecCount cnt then .next (raiseFault .badCount s)
    else if s.mode ≠ .dec ∨ s.final = true then .next (raiseFault .seqErr s)
    else if s.err then .next (reportStoredError s)
    else if overflows s cnt.toNat then .next (raiseFault .posOvf s)
    else .next (decodeGroup cnt.toNat din s))

end Sys2Proof.Machine
end

