-- ==== Sys2Proof/Machine/Encoder.lean ====
section
/-! DEFINITION. The encoder: its datapath as a pure function (rules R100 to R104) and the commands SENC (rule R106) and
EBLK (rule R108). -/

namespace Sys2Proof.Machine

/-- Rule R102: field j of W, (W >> (59 - 5j))[4:0]. -/
def fieldIdx (w : Word) (j : Fin 8) : Idx := (w >>> (59 - 5 * j.val)).extractLsb' 0 5

/-- s_j of rule R103, for the group of r bytes in `din`. -/
def encSymbol (din : Word) (r : Nat) (j : Fin 8) : Byte := alpha (fieldIdx (leftJustified (group40 din r)) j)

/-- Rule R104: the encoder function, the eight symbols and the count of significant ones. -/
def encBlock (din : Word) (r : Nat) : Word × Nat := (packLanes (encSymbol din r), kEnc r)

/-- SENC (rule R106): legal in every MODE; it abandons an open stream. -/
def execSenc (s : State) : Result :=
  unlessFaulted s (.next (respond .ok 0 0 false 0 (s.setStream .enc)))

/-- The last action of EBLK, when every check has passed (rule R108). -/
def encodeGroup (r : Nat) (din : Word) (s : State) : State :=
  respond .ok (encBlock din r).2 0 false (encBlock din r).1 (s.acceptGroup r (decide (r < Config.groupBytes)))

/-- EBLK (rule R108), its checks in the order of rule R176. -/
def execEblk (cnt : BitVec 4) (din : Word) (s : State) : Result :=
  unlessFaulted s (
    if !legalEncCount cnt then .next (raiseFault .badCount s)
    else if s.mode ≠ .enc ∨ s.final = true then .next (raiseFault .seqErr s)
    else if overflows s cnt.toNat then .next (raiseFault .posOvf s)
    else .next (encodeGroup cnt.toNat din s))

end Sys2Proof.Machine
end

