-- ==== Sys2Proof/Machine/Stream.lean ====
section
/-! DEFINITION. Stream control: FIN (rule R150) and STAT (rule R152). -/

namespace Sys2Proof.Machine

/-- FIN's result of an encode stream (rule R150): the 65-bit encoded length of the bytes accepted. -/
def finishEncode (s : State) : State :=
  respond .ok 0 0 (lengthBit64 (encodedLen s.pos.toNat)) (lengthLow (encodedLen s.pos.toNat)) (s.setStream .idle)

/-- FIN's result of a decode stream (rule R150): the stored error, or the decoded length of the symbols accepted. -/
def finishDecode (s : State) : State :=
  if s.err then respond .invalidInput 0 s.ebyte false s.epos (s.setStream .idle)
  else respond .ok 0 0 false (lengthLow (decodedLen s.pos.toNat)) (s.setStream .idle)

/-- FIN (rule R150): the stream's single result is read before the stream registers are cleared. -/
def execFin (s : State) : Result :=
  unlessFaulted s (
    match s.mode with
    | .idle => .next (raiseFault .seqErr s)
    | .enc => .next (finishEncode s)
    | .dec => .next (finishDecode s))

/-- STAT (rule R152): POS and EBYTE are reported and nothing but the response is written. -/
def execStat (s : State) : Result :=
  unlessFaulted s (.next (respond .ok 0 s.ebyte false s.pos s))

end Sys2Proof.Machine
end

