-- ==== Sys2Proof/Machine/Dispatch.lean ====
section
/-! DEFINITION. exec: one arm per command, each one direct call of its meaning. -/

namespace Sys2Proof.Machine

def exec (i : Instr) (s : State) : Host.Outcome State Fault Refusal :=
  match i with
  | .stat => Sys2Proof.Machine.execStat s
  | .senc => Sys2Proof.Machine.execSenc s
  | .sdec => Sys2Proof.Machine.execSdec s
  | .eblk cnt din => Sys2Proof.Machine.execEblk cnt din s
  | .dblk cnt din => Sys2Proof.Machine.execDblk cnt din s
  | .fin => Sys2Proof.Machine.execFin s
  | .lene n => Sys2Proof.Machine.execLene n s
  | .lenb n => Sys2Proof.Machine.execLenb n s

end Sys2Proof.Machine
end

