-- ==== Sys2Proof/Machine/Fetch.lean ====
section
/-! DEFINITION. How a command reaches the unit. The block fetches nothing (rule R21): the host presents CMD and DIN, one
command at a time (rule R204), or asserts RST (rule R200). -/

namespace Sys2Proof.Machine

/-- A command word that spells no command: FAULTED in a faulted unit, else the fault action with the decoder's code
(rule R176, checks 1 and 2). -/
def rejectWord (c : FaultCause) (s : State) : Result :=
  unlessFaulted s (.next (raiseFault c s))

/-- One presented command, as one atomic step (rules R10 and R55): decode it, then run it. -/
def runRequest (q : Request) (s : State) : Result :=
  match decodeRequest q with
  | .ok i => exec i s
  | .error c => rejectWord c s

/-- One action of the host at the ports. A command outstanding at reset is discarded: it has no effect and no response
(rule R200). -/
def performAction (a : HostAction) (s : State) : Result :=
  match a with
  | .command q => runRequest q s
  | .rst _ => .next (resetUnit s)

/-- The unit takes the host's next action. With none it holds its state and waits (rules R154, R184 and R201). -/
def takeTurn (s : State) : Result :=
  match s.host with
  | [] => .next s
  | a :: rest => performAction a (s.setHost rest)

/-- The host is made to present `q` before all else it still has to do. -/
def State.present (s : State) (q : Request) : State := s.setHost (.command q :: s.host)

end Sys2Proof.Machine
end

