-- ==== Sys2Proof/Machine/Step.lean ====
section
/-! DEFINITION. One step of the unit. -/

namespace Sys2Proof.Machine

/-- One step: the unit takes the host's next action. One command is one atomic step (rule R10). -/
def step (s : State) : Host.Outcome State Fault Refusal := takeTurn s

/-- The state in which the very next step runs the table word `w`: the host presents it first (log entry 1). -/
def State.withFetchWord (s : State) (nbits w : Nat) : State := s.present (requestOfTableWord nbits w)

end Sys2Proof.Machine
end

