-- ==== Sys2Proof/Machine/Run.lean ====
section
/-! DEFINITION. The host's side of the protocol: one command issued at a time and its response read (rule R204), the
observation of a run (rule R154), the expansions of the pseudo-instructions into commands (rule R79), and what the
host gathers from the responses (rules R79 and R207). -/

namespace Sys2Proof.Machine

/-- What the host reads after a command: RSTAT and RDATA (rule R27). -/
structure Response where
  rstat : BitVec 32
  rdata : Word
  deriving DecidableEq, Repr

/-- The response a state holds. -/
def State.response (s : State) : Response := { rstat := s.rstat, rdata := s.rdata }

/-- The host presents one command and the unit takes one step. -/
def issue (q : Request) (s : State) : Result := step (s.present q)

/-- The host issues the commands one after the other: the responses, one per command, and the state after the last
one (rule R154). `none` if some command has no next state. -/
def issueAll : List Request → State → Option (List Response × State)
  | [], s => some ([], s)
  | q :: qs, s =>
    match issue q s with
    | .next t => (issueAll qs t).map fun p => (t.response :: p.1, p.2)
    | .fault _ => none
    | .refused _ => none

/-- Cut a list into consecutive groups of `k`, the last one possibly partial; the first argument is fuel, and the
list's length is enough. -/
def groupsOf {α : Type} (k : Nat) : Nat → List α → List (List α)
  | 0, _ => []
  | _ + 1, [] => []
  | fuel + 1, a :: as => (a :: as).take k :: groupsOf k fuel ((a :: as).drop k)

/-- `eblk.<r> <bytes>` (rule R78). -/
def eblkRequest (g : List Byte) : Request := encode (.eblk (BitVec.ofNat 4 g.length) (packBytes g))

/-- `dblk.<r> <bytes>` (rule R78). -/
def dblkRequest (g : List Byte) : Request := encode (.dblk (BitVec.ofNat 4 g.length) (packBytes g))

/-- `encode <bytes>` (rule R79); `encode_into` expands the same way. -/
def expandEncode (d : List Byte) : List Request :=
  encode .senc :: ((groupsOf Config.groupBytes d.length d).map eblkRequest ++ [encode .fin])

/-- `decode <text>` (rule R79). -/
def expandDecode (m : List Byte) : List Request :=
  encode .sdec :: ((groupsOf Config.groupSymbols m.length m).map dblkRequest ++ [encode .fin])

/-- `enclen <n>` is `lene <n>` (rule R79). -/
def expandEnclen (n : Word) : List Request := [encode (.lene n)]

/-- `buflen <n>` is `lenb <n>` (rule R79). -/
def expandBuflen (n : Word) : List Request := [encode (.lenb n)]

/-- The first KCNT lanes of one response (rule R207). -/
def Response.keptLanes (r : Response) : List Byte := (lanesOf r.rdata).take (statusKcnt r.rstat).toNat

/-- The concatenated first-KCNT lanes of a stream's responses. The responses to SENC, SDEC and FIN have KCNT = 0 and
add nothing. -/
def gatherKept (rs : List Response) : List Byte := rs.flatMap Response.keptLanes

/-- The concatenated eight lanes of the group responses of a stream: all but its first and its last response. -/
def gatherAll (rs : List Response) : List Byte := rs.tail.dropLast.flatMap fun r => lanesOf r.rdata

end Sys2Proof.Machine
end

