-- ==== Sys2Proof/Safety.lean ====
section
/-! DEFINITION. The terms in which claims are made: what it means for a state to show a response, the invariants of the
unit, the order of a command's checks and the stream state machine as tables of their own, and the codec on whole
byte sequences as functions on bit strings. None of these is called by the machine. -/

namespace Sys2Proof.Machine

/-- The state `t` is the state `base` with a new response in RSTAT and RDATA, and RSTAT shows the fields given and the
flags of `t` (rules R27 and R28). -/
structure Answered (base t : State) (code : Code) (kcnt : Nat) (ebyte : Byte) (len64 : Bool) (data : Word) : Prop where
  frame : t = { base with rstat := t.rstat, rdata := t.rdata }
  rdata : t.rdata = data
  code : statusCode t.rstat = codeBits code
  kcnt : (statusKcnt t.rstat).toNat = kcnt
  ebyte : statusEbyte t.rstat = ebyte
  len64 : statusLen64 t.rstat = len64
  err : statusErr t.rstat = t.err
  fault : statusFault t.rstat = t.fault
  mode : statusMode t.rstat = modeBits t.mode
  final : statusFinal t.rstat = t.final
  fcause : statusFcause t.rstat = fcauseBits t.fcause
  reserved : statusReserved t.rstat = 0

/-- Rule R34 with rules R24, R25 and R26: an idle unit holds no stream state, ERR belongs to an unfinished decode
stream and lies at most 7 after POS, and EPOS and EBYTE are 0 without it and name an invalid byte with it. -/
structure StreamInv (s : State) : Prop where
  idle_clear : s.mode = .idle → s.pos = 0 ∧ s.final = false ∧ s.err = false ∧ s.epos = 0 ∧ s.ebyte = 0
  err_in_dec : s.err = true → s.mode = .dec
  err_not_final : s.err = true → s.final = false
  err_near : s.err = true → s.pos.toNat ≤ s.epos.toNat ∧ s.epos.toNat ≤ s.pos.toNat + 7
  err_byte : s.err = true → inv s.ebyte = none
  clear_without_err : s.err = false → s.epos = 0 ∧ s.ebyte = 0

/-- Rule R29: FCAUSE = 0 exactly when FAULT = 0. -/
def FaultInv (s : State) : Prop := s.fault = s.fcause.isSome

/-- Rule R53's group alignment with rule R24: every group before the last is full, so POS is a multiple of the group
size exactly while no final partial group has been accepted. -/
structure GroupInv (s : State) : Prop where
  enc : s.mode = .enc → (s.final = false ↔ s.pos.toNat % 5 = 0)
  dec : s.mode = .dec → (s.final = false ↔ s.pos.toNat % 8 = 0)

/-- Rule R28: RSTAT shows the unit's own flags, its reserved bits are 0, and CODE and KCNT are in their legal ranges. -/
structure StatusInv (s : State) : Prop where
  err : statusErr s.rstat = s.err
  fault : statusFault s.rstat = s.fault
  mode : statusMode s.rstat = modeBits s.mode
  final : statusFinal s.rstat = s.final
  fcause : statusFcause s.rstat = fcauseBits s.fcause
  reserved : statusReserved s.rstat = 0
  code : (statusCode s.rstat).toNat ≤ 6
  kcnt : (statusKcnt s.rstat).toNat ≤ 8

/-- Some lane of the group is invalid: the last data check of rule R176. -/
def groupInvalid (din : Word) (r : Nat) : Bool :=
  laneNumbers.any fun j => decide (j.val < r) && (inv (lane din j)).isNone

/-- Rule R176's checks on a decoded command, from the third on, in its order. -/
def commandCode (i : Instr) (s : State) : Code :=
  match i with
  | .eblk cnt _ =>
    if s.mode ≠ .enc ∨ s.final = true then .violation .seqErr
    else if s.pos.toNat + cnt.toNat > Config.posMax then .violation .posOvf
    else .ok
  | .dblk cnt din =>
    if s.mode ≠ .dec ∨ s.final = true then .violation .seqErr
    else if s.err = true then .invalidInput
    else if s.pos.toNat + cnt.toNat > Config.posMax then .violation .posOvf
    else if groupInvalid din cnt.toNat then .invalidInput
    else .ok
  | .fin =>
    if s.mode = .idle then .violation .seqErr
    else if s.mode = .dec ∧ s.err = true then .invalidInput
    else .ok
  | .stat => .ok
  | .senc => .ok
  | .sdec => .ok
  | .lene _ => .ok
  | .lenb _ => .ok

/-- Rule R176: the one code a presented command reports. -/
def checkedCode (q : Request) (s : State) : Code :=
  if s.fault = true then .faulted
  else match decodeRequest q with
    | .error c => .violation c
    | .ok i => commandCode i s

/-- The count of a group command, 0 for every other command (rule R72). -/
def groupCount : Instr → Nat
  | .eblk cnt _ => cnt.toNat
  | .dblk cnt _ => cnt.toNat
  | .stat => 0
  | .senc => 0
  | .sdec => 0
  | .fin => 0
  | .lene _ => 0
  | .lenb _ => 0

/-- The states of rule R153's stream state machine. -/
inductive Phase where
  | idle
  | enc (final : Bool)
  | dec (final err : Bool)
  deriving DecidableEq, Repr

/-- The phase a state is in. -/
def State.phase (s : State) : Phase :=
  match s.mode with
  | .idle => .idle
  | .enc => .enc s.final
  | .dec => .dec s.final s.err

/-- Rule R153's table: the next phase and the code, for a command in a phase; a command not listed for a phase is the
fault SEQ_ERR, which leaves the phase as it is. The case POS_OVF, which the rule gives beside the table, is not in it. -/
def phaseTable (i : Instr) (p : Phase) : Phase × Code :=
  match i, p with
  | .stat, p => (p, .ok)
  | .lene _, p => (p, .ok)
  | .lenb _, p => (p, .ok)
  | .senc, _ => (.enc false, .ok)
  | .sdec, _ => (.dec false false, .ok)
  | .eblk cnt _, .enc false => (.enc (decide (cnt.toNat < 5)), .ok)
  | .dblk cnt din, .dec false false =>
    if groupInvalid din cnt.toNat then (.dec false true, .invalidInput)
    else (.dec (decide (cnt.toNat < 8)) false, .ok)
  | .dblk _ _, .dec false true => (.dec false true, .invalidInput)
  | .fin, .enc _ => (.idle, .ok)
  | .fin, .dec _ false => (.idle, .ok)
  | .fin, .dec _ true => (.idle, .invalidInput)
  | .eblk _ _, p => (p, .violation .seqErr)
  | .dblk _ _, p => (p, .violation .seqErr)
  | .fin, .idle => (.idle, .violation .seqErr)

/-- The bits of a word, most significant first. -/
def bitsOf {n : Nat} (w : BitVec n) : List Bool := (List.range n).map w.getMsbD

/-- The 5-bit index of up to five bits, most significant first, missing bits 0 (the zero-extension of rule R101). -/
def idxOfBits (bs : List Bool) : Idx :=
  BitVec.ofBool (bs.getD 0 false) ++ BitVec.ofBool (bs.getD 1 false) ++ BitVec.ofBool (bs.getD 2 false)
    ++ BitVec.ofBool (bs.getD 3 false) ++ BitVec.ofBool (bs.getD 4 false)

/-- The byte of eight bits, most significant first. -/
def byteOfBits (bs : List Bool) : Byte :=
  BitVec.ofBool (bs.getD 0 false) ++ BitVec.ofBool (bs.getD 1 false) ++ BitVec.ofBool (bs.getD 2 false)
    ++ BitVec.ofBool (bs.getD 3 false) ++ BitVec.ofBool (bs.getD 4 false) ++ BitVec.ofBool (bs.getD 5 false)
    ++ BitVec.ofBool (bs.getD 6 false) ++ BitVec.ofBool (bs.getD 7 false)

/-- The canonical encoding of a byte sequence, read from the source's words alone: its bit string, cut into fives from
the most significant end, the last five filled with zeros, each looked up in the alphabet. -/
def canonicalSymbols (d : List Byte) : List Byte :=
  (groupsOf 5 (d.flatMap bitsOf).length (d.flatMap bitsOf)).map fun bs => alpha (idxOfBits bs)

/-- The decoding of a text of valid symbols: the bit string of its indices, cut into whole octets, the incomplete last
one dropped (rule R92). -/
def canonicalBytes (m : List Byte) : List Byte :=
  let bits := (m.filterMap inv).flatMap bitsOf
  ((groupsOf 8 bits.length bits).take (decodedLen m.length)).map byteOfBits

/-- The character index of the first symbol of a text that is outside the alphabet (rules R122 and R135). -/
def firstInvalidSymbol (m : List Byte) : Option Nat := m.findIdx? fun c => (inv c).isNone

end Sys2Proof.Machine
end

