-- ==== Sys2Proof/Certificates/Slice0/Obligations.lean ====
section
/-! DEFINITION. The statements for the provers, from the numbered rules of spec/. `Answered base t code kcnt ebyte len64
data` (Safety.lean) says that `t` is `base` but for the response, and that the response shows the fields given and the
flags of `t`; so each statement that uses it states the command's whole frame. -/

open Sys2Proof Sys2Proof.Machine

/-! ## Encoding -/

/-- Rules R75 and R77: what each of the 256 command words spells, with the counts of each class, and that a word that
spells no command takes the fault of its class. -/
def Obligations.CommandMapIsComplete : Prop :=
  (∀ din : Word,
    decodeCmd 0x00 din = .ok .stat ∧ decodeCmd 0x10 din = .ok .senc ∧ decodeCmd 0x20 din = .ok .sdec ∧
    decodeCmd 0x50 din = .ok .fin ∧ decodeCmd 0x60 din = .ok (.lene din) ∧ decodeCmd 0x70 din = .ok (.lenb din)) ∧
  (∀ (r : BitVec 4) (din : Word), 1 ≤ r.toNat → r.toNat ≤ 5 →
    decodeCmd (0x30 ||| r.setWidth 8) din = .ok (.eblk r din)) ∧
  (∀ (r : BitVec 4) (din : Word), 1 ≤ r.toNat → r.toNat ≤ 8 →
    decodeCmd (0x40 ||| r.setWidth 8) din = .ok (.dblk r din)) ∧
  (∀ (cmd : CmdWord) (din : Word),
    cmd = 0x30 ∨ (0x36 ≤ cmd ∧ cmd ≤ 0x3F) ∨ cmd = 0x40 ∨ (0x49 ≤ cmd ∧ cmd ≤ 0x4F) →
    decodeCmd cmd din = .error .badCount) ∧
  (∀ (cmd : CmdWord) (din : Word),
    (0x01 ≤ cmd ∧ cmd ≤ 0x0F) ∨ (0x11 ≤ cmd ∧ cmd ≤ 0x1F) ∨ (0x21 ≤ cmd ∧ cmd ≤ 0x2F) ∨
    (0x51 ≤ cmd ∧ cmd ≤ 0x5F) ∨ (0x61 ≤ cmd ∧ cmd ≤ 0x6F) ∨ (0x71 ≤ cmd ∧ cmd ≤ 0x7F) ∨ 0x80 ≤ cmd →
    decodeCmd cmd din = .error .illegalCmd) ∧
  (∀ (q : Request) (c : FaultCause) (s : State), s.fault = false → decodeRequest q = .error c →
    ∃ t, runRequest q s = .next t ∧
      Answered { s with fault := true, fcause := some c } t (.violation c) 0 0 false 0) ∧
  (∀ din : Word,
    ((List.range 256).countP fun n => (decodeCmd (BitVec.ofNat 8 n) din).isOk) = 19 ∧
    ((List.range 256).countP fun n => !(decodeCmd (BitVec.ofNat 8 n) din).isOk) = 237)

/-- Rule R71 and the assembled lines of 95_test_vectors.md: these words decode to these commands. -/
def Obligations.SpecWordsDecode : Prop :=
  decodeRequest { cmd := 0x00, din := 0 } = .ok .stat ∧
  decodeRequest { cmd := 0x10, din := 0 } = .ok .senc ∧
  decodeRequest { cmd := 0x20, din := 0 } = .ok .sdec ∧
  decodeRequest { cmd := 0x35, din := 0x68656C6C6F000000 } = .ok (.eblk 5 0x68656C6C6F000000) ∧
  decodeRequest { cmd := 0x42, din := 0x6367000000000000 } = .ok (.dblk 2 0x6367000000000000) ∧
  decodeRequest { cmd := 0x50, din := 0 } = .ok .fin ∧
  decodeRequest { cmd := 0x60, din := 0xB } = .ok (.lene 11) ∧
  decodeRequest { cmd := 0x70, din := 0x6 } = .ok (.lenb 6)

/-- Rules R70, R71 and R78: decoding the assembled form of a well-formed command gives the command back, with every
operand at every value. -/
def Obligations.DecodeOfEncode : Prop :=
  ∀ i : Instr, i.wellFormed = true → decodeRequest (encode i) = .ok i

/-- Rules R70, R73 and R76: a word that decodes spells a well-formed command, whose assembled form is that very command
word, and that very DIN where the command uses DIN. -/
def Obligations.DecodedCommandIsSpelledOnce : Prop :=
  ∀ (q : Request) (i : Instr), decodeRequest q = .ok i →
    i.wellFormed = true ∧ (encode i).cmd = q.cmd ∧
    (i ≠ .stat → i ≠ .senc → i ≠ .sdec → i ≠ .fin → encode i = q)

/-- Rules R10, R19 and R204: one step takes the host's next action off the list; a presented command that decodes is
executed on the state as it is, and nothing is done around it; a word that does not decode takes its fault; reset
discards an outstanding command; with no action left the unit waits. -/
def Obligations.StepRunsDecodedCommand : Prop :=
  (∀ (s : State) (q : Request) (rest : List HostAction) (i : Instr), s.host = .command q :: rest →
    decodeRequest q = .ok i → step s = exec i { s with host := rest }) ∧
  (∀ (s : State) (q : Request) (rest : List HostAction) (c : FaultCause), s.host = .command q :: rest →
    decodeRequest q = .error c → step s = rejectWord c { s with host := rest }) ∧
  (∀ (s : State) (q : Request) (rest : List HostAction), s.host = .command q :: rest →
    step s = runRequest q { s with host := rest }) ∧
  (∀ (s : State) (o : Option Request) (rest : List HostAction), s.host = .rst o :: rest →
    step s = .next { State.reset with host := rest }) ∧
  (∀ s : State, s.host = [] → step s = .next s)

/-! ## Reset -/

/-- Rule R37: the reset value of every register, and that ALPHA and INV hold their contents, ALPHA the ordered sequence
of rule R31 and INV its inverse; both are constants of the model, the same in every state. -/
def Obligations.ResetValues : Prop :=
  modeBits State.reset.mode = 0 ∧ State.reset.pos = 0 ∧ State.reset.final = false ∧ State.reset.err = false ∧
    State.reset.epos = 0 ∧ State.reset.ebyte = 0x00 ∧ State.reset.fault = false ∧
    fcauseBits State.reset.fcause = 0 ∧ State.reset.rstat = 0x00000000 ∧ State.reset.rdata = 0x0000000000000000 ∧
    (∀ v : Idx, ("0123456789abcdefghjkmnpqrstvwxyz".toList.map Char.toNat)[v.toNat]? = some (alpha v).toNat) ∧
    (∀ (c : Byte) (v : Idx), inv c = some v ↔ alpha v = c)

/-- Rule R200: RST, with a command outstanding or not, puts every register at its reset value and the outstanding command
has no effect and no response; and nothing else clears FAULT. That RST is an action of the host's list is log entry 3. -/
def Obligations.RstLeadsToResetAndAloneClearsFault : Prop :=
  (∀ (s : State) (o : Option Request) (rest : List HostAction), s.host = .rst o :: rest →
    ∃ t, step s = .next t ∧ t = { State.reset with host := rest }) ∧
  (∀ s t : State, step s = .next t → s.fault = true → t.fault = false → ∃ o rest, s.host = .rst o :: rest)

/-- Rule R201: after reset the unit is idle and waits (its idle turn is log entry 2); the first command may be any command, and only STAT, SENC, SDEC,
LENE and LENB complete OK. -/
def Obligations.OnlyFiveCommandsCompleteFromReset : Prop :=
  step State.reset = .next State.reset ∧ State.reset.mode = .idle ∧
  (∀ i : Instr, i = .stat ∨ i = .senc ∨ i = .sdec ∨ (∃ n, i = .lene n) ∨ (∃ n, i = .lenb n) →
    ∃ t, exec i State.reset = .next t ∧ statusCode t.rstat = 0 ∧ t.fault = false) ∧
  (∀ i : Instr, i.wellFormed = true → (∃ c d, i = .eblk c d) ∨ (∃ c d, i = .dblk c d) ∨ i = .fin →
    ∃ t, exec i State.reset = .next t ∧ statusCode t.rstat = 4 ∧ t.fault = true)

/-! ## Responses and registers -/

/-- Rule R27 with the layout of rule R28: `respond` writes RDATA and, field by field, RSTAT, whose flags are those of the
registers as the command leaves them, and it writes nothing else; every presented command, of every word, ends in one
`respond`; and while no command comes, both registers keep their values. -/
def Obligations.EveryCommandWritesItsResponse : Prop :=
  (∀ (code : Code) (kcnt : Nat) (ebyte : Byte) (len64 : Bool) (data : Word) (s : State), kcnt < 16 →
    ∃ t, respond code kcnt ebyte len64 data s = t ∧ t = { s with rstat := t.rstat, rdata := data } ∧
    t.rstat.toNat = (codeBits code).toNat + 2 ^ 4 * kcnt + 2 ^ 8 * ebyte.toNat + 2 ^ 16 * len64.toNat
      + 2 ^ 17 * t.err.toNat + 2 ^ 18 * t.fault.toNat + 2 ^ 19 * (modeBits t.mode).toNat + 2 ^ 21 * t.final.toNat
      + 2 ^ 22 * (fcauseBits t.fcause).toNat) ∧
  (∀ (q : Request) (s : State), ∃ (base : State) (code : Code) (kcnt : Nat) (ebyte : Byte) (len64 : Bool) (data : Word),
    kcnt < 16 ∧ runRequest q s = .next (respond code kcnt ebyte len64 data base)) ∧
  (∀ s t : State, s.host = [] → step s = .next t → t.rstat = s.rstat ∧ t.rdata = s.rdata)

/-- Rule R36's column 'written by': a register changes only under the commands named for it, POS and FINAL under DBLK
only with a valid group, ERR, EPOS and EBYTE only with its first invalid symbol, and FAULT and FCAUSE only by the
fault action. -/
def Obligations.RegistersHaveOnlyTheirWriters : Prop :=
  ∀ (i : Instr) (s t : State), exec i s = .next t →
    (t.mode ≠ s.mode → i = .senc ∨ i = .sdec ∨ i = .fin) ∧
    ((t.pos, t.final) ≠ (s.pos, s.final) →
      i = .senc ∨ i = .sdec ∨ i = .fin ∨ (∃ c d, i = .eblk c d) ∨
      (∃ c d, i = .dblk c d ∧ statusCode t.rstat = codeBits .ok)) ∧
    ((t.err, t.epos, t.ebyte) ≠ (s.err, s.epos, s.ebyte) →
      i = .senc ∨ i = .sdec ∨ i = .fin ∨
      (∃ c d, i = .dblk c d ∧ s.err = false ∧ statusCode t.rstat = codeBits .invalidInput)) ∧
    ((t.fault, t.fcause) ≠ (s.fault, s.fcause) →
      ∃ c, Answered { s with fault := true, fcause := some c } t (.violation c) 0 0 false 0) ∧
    t.host = s.host

/-! ## ROM tables -/

/-- Rule R31: entry v of ALPHA is the code of character v of the source's ordered sequence. -/
def Obligations.AlphabetRomContents : Prop :=
  ∀ v : Idx, ("0123456789abcdefghjkmnpqrstvwxyz".toList.map Char.toNat)[v.toNat]? = some (alpha v).toNat

/-- Rule R32: the entries of INV, row by row. -/
def Obligations.InverseRomContents : Prop :=
  ∀ c : Byte, inv c =
    if c ≤ 0x2F then none
    else if c ≤ 0x39 then some (BitVec.ofNat 5 (c.toNat - 0x30))
    else if c ≤ 0x60 then none
    else if c ≤ 0x68 then some (BitVec.ofNat 5 (10 + (c.toNat - 0x61)))
    else if c = 0x69 then none
    else if c = 0x6A then some 18
    else if c = 0x6B then some 19
    else if c = 0x6C then none
    else if c = 0x6D then some 20
    else if c = 0x6E then some 21
    else if c = 0x6F then none
    else if c ≤ 0x74 then some (BitVec.ofNat 5 (22 + (c.toNat - 0x70)))
    else if c = 0x75 then none
    else if c ≤ 0x7A then some (BitVec.ofNat 5 (27 + (c.toNat - 0x76)))
    else none

/-- Rule R33: the two tables invert each other, and exactly 32 of the 256 entries of INV are `some`. Both are constants
of the model, the same in every state. -/
def Obligations.RomsAreInverse : Prop :=
  (∀ v : Idx, inv (alpha v) = some v) ∧
  (∀ (c : Byte) (v : Idx), inv c = some v → alpha v = c) ∧
  ((List.range 256).countP fun n => (inv (BitVec.ofNat 8 n)).isSome) = 32

/-! ## Length calculator -/

/-- Rules R90, R91 and R92: the closed forms, on every natural number. -/
def Obligations.LengthClosedForms : Prop :=
  (∀ n : Nat, encodedLen n =
    8 * (n / 5) + (if n % 5 = 0 then 0 else if n % 5 = 1 then 2 else if n % 5 = 2 then 4 else if n % 5 = 3 then 5 else 7)) ∧
  (∀ n : Nat, bufferLen n = (n + 5 - 1) / 5 * 8) ∧
  (∀ m : Nat, decodedLen m = m * 5 / 8)

/-- Rule R94, its six identities, for every natural number. The spec derives them from rules R90 to R92. -/
def Obligations.LengthIdentities : Prop :=
  (∀ n, encodedLen n = ceilDiv (8 * n) 5) ∧
  (∀ n, bufferLen n % 8 = 0 ∧ encodedLen n ≤ bufferLen n ∧ bufferLen n - encodedLen n ≤ 6 ∧
    (bufferLen n - encodedLen n = 0 ↔ n % 5 = 0)) ∧
  (∀ n b, b % 8 = 0 → encodedLen n ≤ b → bufferLen n ≤ b) ∧
  (∀ n, encodedLen n ≤ encodedLen (n + 1)) ∧
  (∀ k, encodedLen (5 * k) = 8 * k) ∧
  (∀ n, decodedLen (encodedLen n) = n) ∧
  (∀ n, decodedLen (bufferLen n) = 5 * ceilDiv n 5)

/-- Rule R95: the 65-bit length results are exact, nothing wraps, and a decoded length fits 64 bits. The spec derives
the bounds from rules R90 to R92. -/
def Obligations.LengthResultsAreExact : Prop :=
  (∀ n : Word, encodedLen n.toNat < 2 ^ 65 ∧ bufferLen n.toNat < 2 ^ 65 ∧ decodedLen n.toNat < 2 ^ 64 ∧
    encodedLen n.toNat ≤ 0x19999999999999998 ∧ bufferLen n.toNat ≤ 0x19999999999999998) ∧
  encodedLen (2 ^ 64 - 1) = 0x19999999999999998 ∧ bufferLen (2 ^ 64 - 1) = 0x19999999999999998 ∧
  (∀ (n : Word) (s : State), s.fault = false →
    (∃ t, exec (.lene n) s = .next t ∧ t.rdata.toNat + 2 ^ 64 * (statusLen64 t.rstat).toNat = encodedLen n.toNat) ∧
    (∃ t, exec (.lenb n) s = .next t ∧ t.rdata.toNat + 2 ^ 64 * (statusLen64 t.rstat).toNat = bufferLen n.toNat))

/-- Rule R93: the counts of each group size, and that over full groups and one last group they sum to the whole length.
The spec derives the sums from rules R90 and R92. -/
def Obligations.GroupCountsSumToLengths : Prop :=
  ([1, 2, 3, 4, 5].map kEnc = [2, 4, 5, 7, 8]) ∧
  ([1, 2, 3, 4, 5, 6, 7, 8].map kDec = [0, 1, 1, 2, 3, 3, 4, 5]) ∧
  (∀ q : Nat, encodedLen (5 * q) = q * kEnc 5 ∧ decodedLen (8 * q) = q * kDec 8) ∧
  (∀ q s : Nat, 1 ≤ s → s ≤ 4 → encodedLen (5 * q + s) = q * kEnc 5 + kEnc s) ∧
  (∀ q s : Nat, 1 ≤ s → s ≤ 7 → decodedLen (8 * q + s) = q * kDec 8 + kDec s)

/-- Rule R96, LENE: encoding, result, frame, exceptions, corner cases and example. -/
def Obligations.LeneGivesEncodedLength : Prop :=
  (∀ n : Word, decodeCmd 0x60 n = .ok (.lene n)) ∧
  (∀ (c : BitVec 4) (n : Word), c ≠ 0 → decodeCmd (0x60 ||| c.setWidth 8) n = .error .illegalCmd) ∧
  (∀ (n : Word) (s : State), s.fault = false →
    ∃ t, exec (.lene n) s = .next t ∧
      Answered s t .ok 0 0 ((encodedLen n.toNat).testBit 64) (BitVec.ofNat 64 (encodedLen n.toNat))) ∧
  (∀ (n : Word) (s : State), s.fault = true →
    ∃ t, exec (.lene n) s = .next t ∧ Answered s t .faulted 0 0 false 0) ∧
  encodedLen 0 = 0 ∧ encodedLen (2 ^ 64 - 1) = 2 ^ 64 + 0x9999999999999998 ∧
  (∀ n : Nat, n % 5 = 0 → encodedLen n = 8 * n / 5) ∧
  (∃ t, exec (.lene 11) State.reset = .next t ∧ t.rdata = 0x12 ∧ statusLen64 t.rstat = false ∧ t.rstat = 0x00000000)

/-- Rule R97, LENB: encoding, result, frame, exceptions, corner cases and example. -/
def Obligations.LenbGivesBufferLength : Prop :=
  (∀ n : Word, decodeCmd 0x70 n = .ok (.lenb n)) ∧
  (∀ (c : BitVec 4) (n : Word), c ≠ 0 → decodeCmd (0x70 ||| c.setWidth 8) n = .error .illegalCmd) ∧
  (∀ (n : Word) (s : State), s.fault = false →
    ∃ t, exec (.lenb n) s = .next t ∧
      Answered s t .ok 0 0 ((bufferLen n.toNat).testBit 64) (BitVec.ofNat 64 (bufferLen n.toNat))) ∧
  (∀ (n : Word) (s : State), s.fault = true →
    ∃ t, exec (.lenb n) s = .next t ∧ Answered s t .faulted 0 0 false 0) ∧
  bufferLen 0 = 0 ∧ (∀ n : Nat, 1 ≤ n → n ≤ 5 → bufferLen n = 8) ∧ bufferLen 6 = 16 ∧
  bufferLen (2 ^ 64 - 1) = 2 ^ 64 + 0x9999999999999998 ∧
  (∃ t, exec (.lenb 6) State.reset = .next t ∧ t.rdata = 0x10 ∧ statusLen64 t.rstat = false)

/-! ## Encoder -/

/-- Rules R101, R103 and R104: the group is the big-endian integer of its bytes, missing ones 0, left-justified in 64
bits; symbol j of the block is the alphabet's entry for the group's j-th five bits from the top; and k counts the
significant symbols. -/
def Obligations.EncoderBlockContents : Prop :=
  ∀ (din : Word) (r : Nat), 1 ≤ r → r ≤ 5 →
    ∀ b : Nat → Nat, (∀ j, b j = if j < r then din.toNat / 256 ^ (7 - j) % 256 else 0) →
    ∀ G : Nat, G = b 0 * 256 ^ 4 + b 1 * 256 ^ 3 + b 2 * 256 ^ 2 + b 3 * 256 + b 4 →
      (group40 din r).toNat = G ∧ (leftJustified (group40 din r)).toNat = G * 2 ^ 24 ∧
      (∀ j : Fin 8, lane (encBlock din r).1 j = alpha (BitVec.ofNat 5 (G / 2 ^ (35 - 5 * j.val)))) ∧
      (encBlock din r).2 = [0, 2, 4, 5, 7, 8].getD r 0

/-- Rule R102: the three forms of field j agree, the table of input bits, and that the fields cover the group exactly. -/
def Obligations.BitExtractionTable : Prop :=
  ∀ (b0 b1 b2 b3 b4 : Byte) (G : BitVec 40), G = b0 ++ b1 ++ b2 ++ b3 ++ b4 → ∀ W : Word, W = leftJustified G →
    (∀ j : Fin 8, (fieldIdx W j).toNat = W.toNat / 2 ^ (59 - 5 * j.val) % 32 ∧
      fieldIdx W j = W.extractLsb' (59 - 5 * j.val) 5 ∧ fieldIdx W j = G.extractLsb' (35 - 5 * j.val) 5) ∧
    fieldIdx W 0 = b0.extractLsb' 3 5 ∧
    fieldIdx W 1 = b0.extractLsb' 0 3 ++ b1.extractLsb' 6 2 ∧
    fieldIdx W 2 = b1.extractLsb' 1 5 ∧
    fieldIdx W 3 = b1.extractLsb' 0 1 ++ b2.extractLsb' 4 4 ∧
    fieldIdx W 4 = b2.extractLsb' 0 4 ++ b3.extractLsb' 7 1 ∧
    fieldIdx W 5 = b3.extractLsb' 2 5 ∧
    fieldIdx W 6 = b3.extractLsb' 0 2 ++ b4.extractLsb' 5 3 ∧
    fieldIdx W 7 = b4.extractLsb' 0 5 ∧
    fieldIdx W 0 ++ fieldIdx W 1 ++ fieldIdx W 2 ++ fieldIdx W 3 ++ fieldIdx W 4 ++ fieldIdx W 5 ++ fieldIdx W 6
      ++ fieldIdx W 7 = G

/-- Rule R105: every lane from the significant ones on holds '0', and the last significant index ends in 2, 4, 1 or 3
zero bits for r = 1, 2, 3, 4. The spec derives it from rules R101 and R102. -/
def Obligations.PaddingSymbolsAreZero : Prop :=
  ∀ (din : Word) (r : Nat), 1 ≤ r → r < 5 →
    (∀ j : Fin 8, kEnc r ≤ j.val → lane (encBlock din r).1 j = 0x30) ∧
    (∀ j : Fin 8, j.val + 1 = kEnc r →
      (fieldIdx (leftJustified (group40 din r)) j).toNat % 2 ^ [0, 2, 4, 1, 3].getD r 0 = 0)

/-- Rule R107: after an EBLK that responds OK, each of the eight lanes of RDATA is an alphabet code. The spec derives it
from rules R103 and R104. -/
def Obligations.EncoderOutputIsInTheAlphabet : Prop :=
  ∀ (cnt : BitVec 4) (din : Word) (s t : State), exec (.eblk cnt din) s = .next t →
    statusCode t.rstat = codeBits .ok → ∀ j : Fin 8, ∃ v : Idx, lane t.rdata j = alpha v

/-- Rule R74: an ignored DIN bit changes nothing. STAT, SENC, SDEC, FIN and the words that spell no command ignore DIN
entirely; EBLK and DBLK with count r ignore every lane from r on (of EBLK, the low 24 bits too). The spec derives it
from rule R73 and the command rules. -/
def Obligations.IgnoredDinBitsChangeNothing : Prop :=
  (∀ (cmd : CmdWord) (d e : Word) (s : State),
    opcField cmd ≠ 3 → opcField cmd ≠ 4 → cmd ≠ 0x60 → cmd ≠ 0x70 →
    runRequest { cmd := cmd, din := d } s = runRequest { cmd := cmd, din := e } s) ∧
  (∀ (cmd : CmdWord) (d e : Word) (s : State), opcField cmd = 3 ∨ opcField cmd = 4 →
    (∀ j : Fin 8, j.val < (cntField cmd).toNat → lane d j = lane e j) →
    runRequest { cmd := cmd, din := d } s = runRequest { cmd := cmd, din := e } s)

/-- Rule R109, and its like for the decoder: what a group yields depends on its own DIN and count alone, whatever the
unit held before. The spec derives it from rules R104 and R108. -/
def Obligations.GroupsCarryNothing : Prop :=
  ∀ (i : Instr) (s s' t t' : State), (∃ c d, i = .eblk c d) ∨ (∃ c d, i = .dblk c d) →
    exec i s = .next t → exec i s' = .next t' →
    statusCode t.rstat = codeBits .ok → statusCode t'.rstat = codeBits .ok →
    t.rdata = t'.rdata ∧ statusKcnt t.rstat = statusKcnt t'.rstat ∧ t.final = t'.final

/-- Rule R106, SENC: encoding, result, frame, exceptions and example, in every MODE. -/
def Obligations.SencOpensAnEncodeStream : Prop :=
  (∀ din : Word, decodeCmd 0x10 din = .ok .senc) ∧
  (∀ (c : BitVec 4) (din : Word), c ≠ 0 → decodeCmd (0x10 ||| c.setWidth 8) din = .error .illegalCmd) ∧
  (∀ s : State, s.fault = false →
    ∃ t, exec .senc s = .next t ∧
      Answered { s with mode := .enc, pos := 0, final := false, err := false, epos := 0, ebyte := 0 } t .ok 0 0 false 0 ∧
      statusMode t.rstat = 1 ∧ statusFinal t.rstat = false ∧ statusErr t.rstat = false ∧ t.fault = s.fault) ∧
  (∀ s : State, s.fault = true → ∃ t, exec .senc s = .next t ∧ Answered s t .faulted 0 0 false 0) ∧
  (∃ t, exec .senc State.reset = .next t ∧ t.rstat = 0x00080000 ∧ t.rdata = 0)

/-- Rule R108, EBLK: encoding, checks in order, result, frame, corner cases and example. -/
def Obligations.EblkEncodesOneGroup : Prop :=
  (∀ (r : BitVec 4) (din : Word), 1 ≤ r.toNat → r.toNat ≤ 5 →
    decodeCmd (0x30 ||| r.setWidth 8) din = .ok (.eblk r din)) ∧
  (∀ (r : BitVec 4) (din : Word) (s : State), s.fault = true →
    ∃ t, exec (.eblk r din) s = .next t ∧ Answered s t .faulted 0 0 false 0) ∧
  (∀ (r : BitVec 4) (din : Word) (s : State), s.fault = false → r.toNat = 0 ∨ 5 < r.toNat →
    ∃ t, exec (.eblk r din) s = .next t ∧
      Answered { s with fault := true, fcause := some .badCount } t (.violation .badCount) 0 0 false 0) ∧
  (∀ (r : BitVec 4) (din : Word) (s : State), s.fault = false → 1 ≤ r.toNat → r.toNat ≤ 5 →
    s.mode ≠ .enc ∨ s.final = true →
    ∃ t, exec (.eblk r din) s = .next t ∧
      Answered { s with fault := true, fcause := some .seqErr } t (.violation .seqErr) 0 0 false 0) ∧
  (∀ (r : BitVec 4) (din : Word) (s : State), s.fault = false → 1 ≤ r.toNat → r.toNat ≤ 5 →
    s.mode = .enc → s.final = false → s.pos.toNat + r.toNat > 2 ^ 64 - 1 →
    ∃ t, exec (.eblk r din) s = .next t ∧
      Answered { s with fault := true, fcause := some .posOvf } t (.violation .posOvf) 0 0 false 0) ∧
  (∀ (r : BitVec 4) (din : Word) (s : State), s.fault = false → 1 ≤ r.toNat → r.toNat ≤ 5 →
    s.mode = .enc → s.final = false → s.pos.toNat + r.toNat ≤ 2 ^ 64 - 1 →
    ∃ t, exec (.eblk r din) s = .next t ∧
      Answered { s with pos := t.pos, final := decide (r.toNat < 5) } t .ok (kEnc r.toNat) 0 false
        (encBlock din r.toNat).1 ∧
      t.pos.toNat = s.pos.toNat + r.toNat ∧ t.err = s.err) ∧
  encBlock 0 5 = (0x3030303030303030, 8) ∧ encBlock 0xFFFFFFFFFF000000 5 = (0x7A7A7A7A7A7A7A7A, 8) ∧
  encBlock 0xFF00000000000000 1 = (0x7A77303030303030, 2) ∧
  (∀ (d e : Word) (r : Nat), 1 ≤ r → r ≤ 5 → (∀ j : Fin 8, j.val < r → lane d j = lane e j) →
    encBlock d r = encBlock e r) ∧
  (∀ s : State, s = { State.reset with mode := .enc } →
    ∃ t, exec (.eblk 5 0x68656c6c6f000000) s = .next t ∧ t.rdata = 0x64316a7072763366 ∧
      statusKcnt t.rstat = 8 ∧ t.pos = 5 ∧ t.rstat = 0x00080080)

/-! ## Decoder -/

/-- Rule R122 over rule R121's lanes: the datapath errs exactly when some lane below r is invalid, and then with the
least such lane and its byte. -/
def Obligations.LeastInvalidLaneIsReported : Prop :=
  ∀ (din : Word) (r : Nat), 1 ≤ r → r ≤ 8 →
    (∀ (e : Fin 8) (c : Byte), decBlock din r = .err e c ↔
      (e.val < r ∧ inv (lane din e) = none ∧ (∀ j : Fin 8, j < e → inv (lane din j) ≠ none) ∧ c = lane din e)) ∧
    ((∃ out k, decBlock din r = .ok out k) ↔ ∀ j : Fin 8, j.val < r → inv (lane din j) ≠ none)

/-- Rule R124: the five byte formulas, each truncated to 8 bits; and the equivalent slices of the 40-bit concatenation
of the indices that rule R125 gives. -/
def Obligations.ByteAssemblyIsTheSlicing : Prop :=
  ∀ x : Fin 8 → Idx,
    (assembledByte x 0).toNat = ((x 0).toNat <<< 3 ||| (x 1).toNat >>> 2) % 256 ∧
    (assembledByte x 1).toNat = ((x 1).toNat <<< 6 ||| (x 2).toNat <<< 1 ||| (x 3).toNat >>> 4) % 256 ∧
    (assembledByte x 2).toNat = ((x 3).toNat <<< 4 ||| (x 4).toNat >>> 1) % 256 ∧
    (assembledByte x 3).toNat = ((x 4).toNat <<< 7 ||| (x 5).toNat <<< 2 ||| (x 6).toNat >>> 3) % 256 ∧
    (assembledByte x 4).toNat = ((x 6).toNat <<< 5 ||| (x 7).toNat) % 256 ∧
    (∀ G : BitVec 40, G = x 0 ++ x 1 ++ x 2 ++ x 3 ++ x 4 ++ x 5 ++ x 6 ++ x 7 →
      ∀ i : Fin 8, i.val < 5 → assembledByte x i = G.extractLsb' (32 - 8 * i.val) 8)

/-- Rule R126: of a group whose symbols are all valid, the kept bytes are the assembled ones below kDec(r), and every
other lane is 0x00. -/
def Obligations.LaneMaskKeepsTheTruncation : Prop :=
  ∀ (din : Word) (r : Nat), 1 ≤ r → r ≤ 8 → (∀ j : Fin 8, j.val < r → inv (lane din j) ≠ none) →
    ∀ x : Fin 8 → Idx, (∀ j : Fin 8, j.val < r → inv (lane din j) = some (x j)) → (∀ j : Fin 8, r ≤ j.val → x j = 0) →
    ∃ out, decBlock din r = .ok out (kDec r) ∧ kDec r = [0, 0, 1, 1, 2, 3, 3, 4, 5].getD r 0 ∧
      (∀ i : Fin 8, lane out i = if i.val < kDec r then assembledByte x i else 0x00) ∧
      out.extractLsb' 0 24 = 0

/-- Rules R125 and R138 for one group: decoding the significant symbols of an encoded group gives back its bytes, and
decoding all eight gives them followed by 0x00. The spec derives both. -/
def Obligations.GroupRoundTrip : Prop :=
  ∀ (din : Word) (r : Nat), 1 ≤ r → r ≤ 5 →
    decBlock (encBlock din r).1 (kEnc r) = .ok (packLanes fun j => if j.val < r then lane din j else 0) r ∧
    decBlock (encBlock din r).1 8 = .ok (packLanes fun j => if j.val < r then lane din j else 0) 5

/-- Rule R128: no kept byte of a partial group depends on a filler index. The spec derives it from rules R124 and
R126. -/
def Obligations.FillerIsUnobservable : Prop :=
  ∀ (r : Nat) (x y : Fin 8 → Idx), 1 ≤ r → r ≤ 7 → (∀ j : Fin 8, j.val < r → x j = y j) →
    (∀ i : Fin 8, i.val < kDec r → assembledByte x i = assembledByte y i) ∧
    keptWord x (kDec r) = keptWord y (kDec r)

/-- Rule R134: exactly the 32 alphabet codes are valid symbols; every count of valid symbols is accepted; and unused low
bits of the last kept symbol are dropped, so that two texts can decode alike. -/
def Obligations.DecodingIsStrictButNotCanonical : Prop :=
  (∀ c : Byte, (inv c).isSome = true ↔ ∃ v : Idx, alpha v = c) ∧
  (∀ c : Byte, (0x41 ≤ c ∧ c ≤ 0x5A) ∨ c = 0x69 ∨ c = 0x6C ∨ c = 0x6F ∨ c = 0x75 ∨ c = 0x00 ∨ 0x80 ≤ c → inv c = none) ∧
  (∀ (din : Word) (r : Nat), 1 ≤ r → r ≤ 8 → (∀ j : Fin 8, j.val < r → ∃ v : Idx, lane din j = alpha v) →
    ∃ out, decBlock din r = .ok out (kDec r)) ∧
  decBlock 0x7A7A000000000000 2 = .ok 0xFF00000000000000 1 ∧
  decBlock 0x7A77000000000000 2 = .ok 0xFF00000000000000 1

/-- Rule R129, SDEC: encoding, result, frame, exceptions and example, in every MODE. -/
def Obligations.SdecOpensADecodeStream : Prop :=
  (∀ din : Word, decodeCmd 0x20 din = .ok .sdec) ∧
  (∀ (c : BitVec 4) (din : Word), c ≠ 0 → decodeCmd (0x20 ||| c.setWidth 8) din = .error .illegalCmd) ∧
  (∀ s : State, s.fault = false →
    ∃ t, exec .sdec s = .next t ∧
      Answered { s with mode := .dec, pos := 0, final := false, err := false, epos := 0, ebyte := 0 } t .ok 0 0 false 0 ∧
      statusMode t.rstat = 2 ∧ statusFinal t.rstat = false ∧ statusErr t.rstat = false) ∧
  (∀ s : State, s.fault = true → ∃ t, exec .sdec s = .next t ∧ Answered s t .faulted 0 0 false 0) ∧
  (∃ t, exec .sdec State.reset = .next t ∧ t.rstat = 0x00100000 ∧ t.rdata = 0)

/-- Rules R130 to R133, DBLK: encoding, checks in order, the stored error, the invalid branch, the valid branch, frame,
corner cases and example. -/
def Obligations.DblkDecodesOneGroup : Prop :=
  (∀ (r : BitVec 4) (din : Word), 1 ≤ r.toNat → r.toNat ≤ 8 →
    decodeCmd (0x40 ||| r.setWidth 8) din = .ok (.dblk r din)) ∧
  (∀ (r : BitVec 4) (din : Word) (s : State), s.fault = true →
    ∃ t, exec (.dblk r din) s = .next t ∧ Answered s t .faulted 0 0 false 0) ∧
  (∀ (r : BitVec 4) (din : Word) (s : State), s.fault = false → r.toNat = 0 ∨ 8 < r.toNat →
    ∃ t, exec (.dblk r din) s = .next t ∧
      Answered { s with fault := true, fcause := some .badCount } t (.violation .badCount) 0 0 false 0) ∧
  (∀ (r : BitVec 4) (din : Word) (s : State), s.fault = false → 1 ≤ r.toNat → r.toNat ≤ 8 →
    s.mode ≠ .dec ∨ s.final = true →
    ∃ t, exec (.dblk r din) s = .next t ∧
      Answered { s with fault := true, fcause := some .seqErr } t (.violation .seqErr) 0 0 false 0) ∧
  (∀ (r : BitVec 4) (din : Word) (s : State), s.fault = false → 1 ≤ r.toNat → r.toNat ≤ 8 →
    s.mode = .dec → s.final = false → s.err = true →
    ∃ t, exec (.dblk r din) s = .next t ∧ Answered s t .invalidInput 0 s.ebyte false s.epos) ∧
  (∀ (r : BitVec 4) (din : Word) (s : State), s.fault = false → 1 ≤ r.toNat → r.toNat ≤ 8 →
    s.mode = .dec → s.final = false → s.err = false → s.pos.toNat + r.toNat > 2 ^ 64 - 1 →
    ∃ t, exec (.dblk r din) s = .next t ∧
      Answered { s with fault := true, fcause := some .posOvf } t (.violation .posOvf) 0 0 false 0) ∧
  (∀ (r : BitVec 4) (din : Word) (s : State) (e : Fin 8) (c : Byte), s.fault = false → 1 ≤ r.toNat → r.toNat ≤ 8 →
    s.mode = .dec → s.final = false → s.err = false → s.pos.toNat + r.toNat ≤ 2 ^ 64 - 1 →
    decBlock din r.toNat = .err e c →
    ∃ t, exec (.dblk r din) s = .next t ∧
      Answered { s with err := true, epos := t.rdata, ebyte := c } t .invalidInput 0 c false t.rdata ∧
      t.rdata.toNat = s.pos.toNat + e.val) ∧
  (∀ (r : BitVec 4) (din : Word) (s : State) (out : Word) (k : Nat), s.fault = false → 1 ≤ r.toNat → r.toNat ≤ 8 →
    s.mode = .dec → s.final = false → s.err = false → s.pos.toNat + r.toNat ≤ 2 ^ 64 - 1 →
    decBlock din r.toNat = .ok out k →
    ∃ t, exec (.dblk r din) s = .next t ∧
      Answered { s with pos := t.pos, final := decide (r.toNat < 8) } t .ok k 0 false out ∧ k = kDec r.toNat ∧
      t.pos.toNat = s.pos.toNat + r.toNat) ∧
  kDec 1 = 0 ∧ decBlock 0x8000000000000000 1 = .err 0 0x80 ∧
  decBlock 0x7A7A000000000000 2 = .ok 0xFF00000000000000 1 ∧
  (∀ (d e : Word) (r : Nat), 1 ≤ r → r ≤ 8 → (∀ j : Fin 8, j.val < r → lane d j = lane e j) →
    decBlock d r = decBlock e r) ∧
  (∀ s : State, s = { State.reset with mode := .dec } →
    ∃ t, exec (.dblk 8 0x64316a7072763366) s = .next t ∧ t.rdata = 0x68656c6c6f000000 ∧
      statusKcnt t.rstat = 5 ∧ t.pos = 8 ∧ t.rstat = 0x00100050)

/-! ## Stream control -/

/-- Rule R150, FIN: encoding, checks, the three results, frame, corner cases and examples. -/
def Obligations.FinReturnsTheStreamResult : Prop :=
  (∀ din : Word, decodeCmd 0x50 din = .ok .fin) ∧
  (∀ (c : BitVec 4) (din : Word), c ≠ 0 → decodeCmd (0x50 ||| c.setWidth 8) din = .error .illegalCmd) ∧
  (∀ s : State, s.fault = true → ∃ t, exec .fin s = .next t ∧ Answered s t .faulted 0 0 false 0) ∧
  (∀ s : State, s.fault = false → s.mode = .idle →
    ∃ t, exec .fin s = .next t ∧
      Answered { s with fault := true, fcause := some .seqErr } t (.violation .seqErr) 0 0 false 0) ∧
  (∀ s : State, s.fault = false → s.mode = .enc →
    ∃ t, exec .fin s = .next t ∧
      Answered { s with mode := .idle, pos := 0, final := false, err := false, epos := 0, ebyte := 0 } t .ok 0 0x00
        ((encodedLen s.pos.toNat).testBit 64) (BitVec.ofNat 64 (encodedLen s.pos.toNat))) ∧
  (∀ s : State, s.fault = false → s.mode = .dec → s.err = true →
    ∃ t, exec .fin s = .next t ∧
      Answered { s with mode := .idle, pos := 0, final := false, err := false, epos := 0, ebyte := 0 } t .invalidInput 0
        s.ebyte false s.epos) ∧
  (∀ s : State, s.fault = false → s.mode = .dec → s.err = false →
    ∃ t, exec .fin s = .next t ∧
      Answered { s with mode := .idle, pos := 0, final := false, err := false, epos := 0, ebyte := 0 } t .ok 0 0x00 false
        t.rdata ∧
      t.rdata.toNat = decodedLen s.pos.toNat) ∧
  encodedLen 0 = 0 ∧ decodedLen 0 = 0 ∧
  (∀ s : State, s = { State.reset with mode := .enc, pos := 11, final := true } →
    ∃ t, exec .fin s = .next t ∧ t.rdata = 0x12 ∧ t.rstat = 0x00000000) ∧
  (∀ s : State, s = { State.reset with mode := .dec, pos := 8, err := true, epos := 8, ebyte := 0xC3 } →
    ∃ t, exec .fin s = .next t ∧ t.rdata = 8 ∧ t.rstat = 0x0000C301)

/-- Rule R152, STAT: encoding, result, frame, exceptions, corner cases and example, in every MODE. -/
def Obligations.StatReadsThePosition : Prop :=
  (∀ din : Word, decodeCmd 0x00 din = .ok .stat) ∧
  (∀ (c : BitVec 4) (din : Word), c ≠ 0 → decodeCmd (c.setWidth 8) din = .error .illegalCmd) ∧
  (∀ s : State, s.fault = false →
    ∃ t, exec .stat s = .next t ∧ Answered s t .ok 0 s.ebyte false s.pos ∧
      statusFault t.rstat = false ∧ (FaultInv s → statusFcause t.rstat = 0)) ∧
  (∀ s : State, s.fault = true → ∃ t, exec .stat s = .next t ∧ Answered s t .faulted 0 0 false 0) ∧
  (∀ s : State, s.fault = false → StreamInv s → s.mode = .idle → ∃ t, exec .stat s = .next t ∧ t.rdata = 0) ∧
  (∀ s : State, s = { State.reset with mode := .enc, pos := 6, final := true } →
    ∃ t, exec .stat s = .next t ∧ t.rdata = 6 ∧ t.rstat = 0x00280000)

/-- Rule R153: the stream state machine. In a unit with FAULT = 0, a well-formed command that would not carry POS past
POS_MAX leads to the phase and the code of the table, and faults exactly where the table says SEQ_ERR. The spec
derives the table from the command rules. -/
def Obligations.StreamStateMachine : Prop :=
  ∀ (i : Instr) (s : State), s.fault = false → i.wellFormed = true → s.pos.toNat + groupCount i ≤ 2 ^ 64 - 1 →
    ∃ t, exec i s = .next t ∧ t.phase = (phaseTable i s.phase).1 ∧
      statusCode t.rstat = codeBits (phaseTable i s.phase).2 ∧
      (t.fault = true ↔ (phaseTable i s.phase).2 = .violation .seqErr)

/-! ## Faults -/

/-- Rule R174: every contract violation of a presented command takes the fault action, and nothing else is written. -/
def Obligations.FaultActionIsPrecise : Prop :=
  ∀ (q : Request) (s : State) (c : FaultCause), checkedCode q s = .violation c →
    ∃ t, runRequest q s = .next t ∧
      Answered { s with fault := true, fcause := some c } t (.violation c) 0 0 false 0

/-- Rule R175: a faulted unit answers FAULTED to every command word and changes no other register, FCAUSE keeps the
first fault's cause, and only reset leaves this state. -/
def Obligations.FaultedUnitRefusesEveryCommand : Prop :=
  (∀ (q : Request) (s : State), s.fault = true →
    ∃ t, runRequest q s = .next t ∧ Answered s t .faulted 0 0 false 0 ∧ t.fcause = s.fcause ∧
      statusFcause t.rstat = fcauseBits s.fcause ∧ statusFault t.rstat = true) ∧
  (∀ (a : HostAction) (s t : State), s.fault = true → performAction a s = .next t →
    (t.fault = true ∧ t.fcause = s.fcause) ∨ ∃ o, a = .rst o)

/-- Rule R176: a presented command reports exactly the code of the first check that applies; a DBLK that reports
INVALID_INPUT reports the stored error where there is one, and else the leftmost invalid symbol of its group. -/
def Obligations.ChecksApplyInOrder : Prop :=
  ∀ (q : Request) (s : State), ∃ t, runRequest q s = .next t ∧
    statusCode t.rstat = codeBits (checkedCode q s) ∧
    (∀ (cnt : BitVec 4) (din : Word), decodeRequest q = .ok (.dblk cnt din) → checkedCode q s = .invalidInput →
      (s.err = true → Answered s t .invalidInput 0 s.ebyte false s.epos) ∧
      (s.err = false → ∃ e : Fin 8, e.val < cnt.toNat ∧ inv (lane din e) = none ∧
        (∀ j : Fin 8, j < e → inv (lane din j) ≠ none) ∧
        t.rdata.toNat = s.pos.toNat + e.val ∧ statusEbyte t.rstat = lane din e))

/-- Rule R170: the value of each code, the commands that raise it, its cause, and what is recorded with it. The next
state of a faulting command is written out whole, so nothing of the command word is recorded in it. -/
def Obligations.ResultCodesAndRecords : Prop :=
  ∀ (q : Request) (s : State), ∃ t, runRequest q s = .next t ∧
    (checkedCode q s = .ok → statusCode t.rstat = 0 ∧
      (decodeRequest q = .ok .stat → t.rdata = s.pos) ∧
      (decodeRequest q = .ok .senc ∨ decodeRequest q = .ok .sdec → t.rdata = 0) ∧
      (∀ c d, decodeRequest q = .ok (.eblk c d) → t.rdata = (encBlock d c.toNat).1) ∧
      (∀ c d, decodeRequest q = .ok (.dblk c d) → decBlock d c.toNat = .ok t.rdata (kDec c.toNat)) ∧
      (decodeRequest q = .ok .fin → s.mode = .enc → t.rdata = BitVec.ofNat 64 (encodedLen s.pos.toNat)) ∧
      (decodeRequest q = .ok .fin → s.mode = .dec → t.rdata = BitVec.ofNat 64 (decodedLen s.pos.toNat)) ∧
      (∀ n, decodeRequest q = .ok (.lene n) → t.rdata = BitVec.ofNat 64 (encodedLen n.toNat)) ∧
      (∀ n, decodeRequest q = .ok (.lenb n) → t.rdata = BitVec.ofNat 64 (bufferLen n.toNat))) ∧
    (checkedCode q s = .invalidInput → statusCode t.rstat = 1 ∧
      ((∃ c d, decodeRequest q = .ok (.dblk c d) ∧ t.rdata = t.epos ∧ statusEbyte t.rstat = t.ebyte ∧
          (s.err = true → t.epos = s.epos ∧ t.ebyte = s.ebyte) ∧
          (s.err = false → ∃ e : Fin 8, e.val < c.toNat ∧ t.epos.toNat = s.pos.toNat + e.val ∧
            t.ebyte = lane d e ∧ inv (lane d e) = none ∧ ∀ j : Fin 8, j < e → inv (lane d j) ≠ none)) ∨
        (decodeRequest q = .ok .fin ∧ s.mode = .dec ∧ s.err = true ∧ t.rdata = s.epos ∧
          statusEbyte t.rstat = s.ebyte))) ∧
    (checkedCode q s = .violation .illegalCmd → statusCode t.rstat = 2 ∧ statusFcause t.rstat = 2 ∧
      Answered { s with fault := true, fcause := some .illegalCmd } t (.violation .illegalCmd) 0 0 false 0 ∧
      (8 ≤ (opcField q.cmd).toNat ∨ (cntField q.cmd ≠ 0 ∧ opcField q.cmd ≠ 3 ∧ opcField q.cmd ≠ 4))) ∧
    (checkedCode q s = .violation .badCount → statusCode t.rstat = 3 ∧ statusFcause t.rstat = 3 ∧
      Answered { s with fault := true, fcause := some .badCount } t (.violation .badCount) 0 0 false 0 ∧
      ((opcField q.cmd = 3 ∧ ¬ (1 ≤ (cntField q.cmd).toNat ∧ (cntField q.cmd).toNat ≤ 5)) ∨
        (opcField q.cmd = 4 ∧ ¬ (1 ≤ (cntField q.cmd).toNat ∧ (cntField q.cmd).toNat ≤ 8)))) ∧
    (checkedCode q s = .violation .seqErr → statusCode t.rstat = 4 ∧ statusFcause t.rstat = 4 ∧
      Answered { s with fault := true, fcause := some .seqErr } t (.violation .seqErr) 0 0 false 0 ∧
      (((∃ c d, decodeRequest q = .ok (.eblk c d)) ∧ (s.mode ≠ .enc ∨ s.final = true)) ∨
        ((∃ c d, decodeRequest q = .ok (.dblk c d)) ∧ (s.mode ≠ .dec ∨ s.final = true)) ∨
        (decodeRequest q = .ok .fin ∧ s.mode = .idle))) ∧
    (checkedCode q s = .violation .posOvf → statusCode t.rstat = 5 ∧ statusFcause t.rstat = 5 ∧
      Answered { s with fault := true, fcause := some .posOvf } t (.violation .posOvf) 0 0 false 0 ∧
      ∃ i, decodeRequest q = .ok i ∧ ((∃ c d, i = .eblk c d) ∨ ∃ c d, i = .dblk c d) ∧
        s.pos.toNat + groupCount i > 2 ^ 64 - 1) ∧
    (checkedCode q s = .faulted → statusCode t.rstat = 6 ∧ s.fault = true ∧ Answered s t .faulted 0 0 false 0 ∧
      t.fcause = s.fcause) ∧
    (statusCode t.rstat).toNat ≤ 6

/-- Rule R171: INVALID_INPUT never sets FAULT; the decode stream stays open with ERR = 1 until FIN, SENC or SDEC; FIN
reports it once more; and no encoder command raises it. -/
def Obligations.InvalidInputIsNoFault : Prop :=
  (∀ (q : Request) (s t : State), runRequest q s = .next t → statusCode t.rstat = codeBits .invalidInput →
    t.fault = false ∧ s.fault = false ∧ t.fcause = s.fcause ∧
    ((∃ c d, decodeRequest q = .ok (.dblk c d)) ∧ t.mode = .dec ∧ t.err = true ∨ decodeRequest q = .ok .fin)) ∧
  (∀ (q : Request) (s t : State), runRequest q s = .next t → s.mode = .dec → s.err = true →
    decodeRequest q ≠ .ok .fin → decodeRequest q ≠ .ok .senc → decodeRequest q ≠ .ok .sdec →
    t.mode = .dec ∧ t.err = true ∧ t.epos = s.epos ∧ t.ebyte = s.ebyte) ∧
  (∀ s : State, s.fault = false → s.mode = .dec → s.err = true →
    ∃ t, exec .fin s = .next t ∧ statusCode t.rstat = codeBits .invalidInput ∧ t.rdata = s.epos ∧
      statusEbyte t.rstat = s.ebyte)

/-- Rule R173: whether a command faults, and with which cause, does not depend on DIN, neither on a data byte, a symbol
or a length nor on an ignored bit. -/
def Obligations.DataValuesNeverFault : Prop :=
  ∀ (cmd : CmdWord) (d e : Word) (s : State), ∃ t u,
    runRequest { cmd := cmd, din := d } s = .next t ∧ runRequest { cmd := cmd, din := e } s = .next u ∧
    t.fault = u.fault ∧ t.fcause = u.fcause

/-! ## Invariants -/

/-- Rules R24, R25, R26 and R34: every step keeps the stream registers' invariant. The spec derives rule R34. -/
def Obligations.StepKeepsStreamInv : Prop :=
  ∀ s t : State, StreamInv s → step s = .next t → StreamInv t

/-- Rule R29: every step keeps FCAUSE = 0 exactly when FAULT = 0. -/
def Obligations.StepKeepsFaultInv : Prop :=
  ∀ s t : State, FaultInv s → step s = .next t → FaultInv t

/-- Rule R53: every step keeps POS a multiple of the group size exactly while no final partial group has been accepted.
The spec derives the alignment from rules R23, R24 and R172. -/
def Obligations.StepKeepsGroupInv : Prop :=
  ∀ s t : State, GroupInv s → step s = .next t → GroupInv t

/-- Rule R28: every step keeps RSTAT a true copy of the unit's flags, with its reserved bits 0 and CODE and KCNT in their
legal ranges. -/
def Obligations.StepKeepsStatusInv : Prop :=
  ∀ s t : State, StatusInv s → step s = .next t → StatusInv t

/-- The four invariants hold after reset (rule R37). -/
def Obligations.ResetMeetsTheInvariants : Prop :=
  StreamInv State.reset ∧ FaultInv State.reset ∧ GroupInv State.reset ∧ StatusInv State.reset

/-! ## The whole unit -/

/-- Rule R209's premise and rules R75 and R174: every step, and every command of every operand, leads to a next state;
the model has no stop. That a real unit never hangs is the spec's fairness assumption (log entry 8). -/
def Obligations.EveryStepCompletes : Prop :=
  (∀ s : State, ∃ t, step s = .next t) ∧ (∀ (i : Instr) (s : State), ∃ t, exec i s = .next t)

/-- Rule R21: POS never wraps. A command that neither opens nor closes a stream moves POS forward by at most one group, in
unbounded arithmetic. -/
def Obligations.PositionNeverWraps : Prop :=
  ∀ (i : Instr) (s t : State), exec i s = .next t → i ≠ .senc → i ≠ .sdec → i ≠ .fin →
    t.pos.toNat = s.pos.toNat ∨ (t.pos.toNat = s.pos.toNat + groupCount i ∧ statusCode t.rstat = codeBits .ok)

/-- Rules R34 and R112: nothing a stream wrote is visible to the next one. Two units with FAULT = 0, whatever their
registers, are in the same state once the same SENC or SDEC has run. -/
def Obligations.NewStreamForgetsTheOld : Prop :=
  ∀ (i : Instr) (s s' : State), i = .senc ∨ i = .sdec → s.fault = false → s'.fault = false → FaultInv s → FaultInv s' →
    s.host = s'.host → ∃ t, exec i s = .next t ∧ exec i s' = .next t

/-- Rule R55: STAT, LENE and LENB are idempotent; repeating one gives the same response and changes no state. -/
def Obligations.QueriesAreIdempotent : Prop :=
  ∀ (i : Instr) (s : State), i = .stat ∨ (∃ n, i = .lene n) ∨ (∃ n, i = .lenb n) →
    ∃ t, exec i s = .next t ∧ exec i t = .next t ∧ t = { s with rstat := t.rstat, rdata := t.rdata }

/-- Rule R154: issuing commands one by one is the run of the unit whose host has that script, step for step. -/
def Obligations.IssuedCommandsAreTheRun : Prop :=
  ∀ (qs : List Request) (s t : State) (rs : List Response), issueAll qs s = some (rs, t) →
    rs.length = qs.length ∧
    core.run qs.length { s with host := qs.map HostAction.command ++ s.host } = .next t

/-! ## Whole streams -/

/-- Rules R110, R111 and R211: for every byte sequence a stream can hold, from every state with FAULT = 0, the expansion
of `encode` completes with every response OK; the significant symbols are the canonical encoding read off the bit
string; all lanes are that encoding followed by '0's up to bufferLen; FIN returns encodedLen exactly; and the unit is
idle again. The spec derives these results. -/
def Obligations.EncodeStreamIsTheCanonicalEncoding : Prop :=
  ∀ (d : List Byte) (s : State), s.fault = false → d.length ≤ 2 ^ 64 - 1 →
    ∃ rs t, issueAll (expandEncode d) s = some (rs, t) ∧ rs.length = ceilDiv d.length 5 + 2 ∧
      (∀ r ∈ rs, statusCode r.rstat = codeBits .ok) ∧
      gatherKept rs = canonicalSymbols d ∧ (canonicalSymbols d).length = encodedLen d.length ∧
      gatherAll rs = canonicalSymbols d ++ List.replicate (bufferLen d.length - encodedLen d.length) 0x30 ∧
      t.rdata.toNat + 2 ^ 64 * (statusLen64 t.rstat).toNat = encodedLen d.length ∧
      t = { s with mode := .idle, pos := 0, final := false, err := false, epos := 0, ebyte := 0,
                   rstat := t.rstat, rdata := t.rdata }

/-- Rules R135, R137 and R151: for every text a stream can hold, from every state with FAULT = 0, the expansion of
`decode` completes with exactly one result. A text of alphabet symbols gives OK with decodedLen bytes, which are the
octets of the symbols' bit string; any other text gives INVALID_INPUT with the index and the byte of its first invalid
symbol. The spec derives the index from rules R122, R131 and R134. -/
def Obligations.DecodeStreamHasOneResult : Prop :=
  ∀ (m : List Byte) (s : State), s.fault = false → m.length ≤ 2 ^ 64 - 1 →
    ∃ rs t, issueAll (expandDecode m) s = some (rs, t) ∧ rs.length = ceilDiv m.length 8 + 2 ∧
      (firstInvalidSymbol m = none →
        (∀ r ∈ rs, statusCode r.rstat = codeBits .ok) ∧ gatherKept rs = canonicalBytes m ∧
        (canonicalBytes m).length = decodedLen m.length ∧ t.rdata.toNat = decodedLen m.length) ∧
      (∀ p, firstInvalidSymbol m = some p →
        statusCode t.rstat = codeBits .invalidInput ∧ t.rdata.toNat = p ∧ m[p]? = some (statusEbyte t.rstat)) ∧
      t = { s with mode := .idle, pos := 0, final := false, err := false, epos := 0, ebyte := 0,
                   rstat := t.rstat, rdata := t.rdata }

/-- Rule R138: encode a byte sequence and decode the canonical symbols: the sequence comes back. Decode all the symbols:
it comes back followed by 0x00 up to a whole number of groups. The spec derives both. -/
def Obligations.StreamRoundTrip : Prop :=
  ∀ (d : List Byte) (s : State), s.fault = false → bufferLen d.length ≤ 2 ^ 64 - 1 →
    ∃ rs t, issueAll (expandEncode d) s = some (rs, t) ∧
      (∃ ks u, issueAll (expandDecode (gatherKept rs)) t = some (ks, u) ∧ statusCode u.rstat = codeBits .ok ∧
        gatherKept ks = d ∧ u.rdata.toNat = d.length) ∧
      (∃ ks u, issueAll (expandDecode (gatherAll rs)) t = some (ks, u) ∧ statusCode u.rstat = codeBits .ok ∧
        gatherKept ks = d ++ List.replicate (5 * ceilDiv d.length 5 - d.length) 0x00 ∧
        u.rdata.toNat = 5 * ceilDiv d.length 5)
end

