-- ==== Sys2Proof/Laws/Operands.lean ====
section
/-! SUPPORT. The operand forms and the RSTAT layout, each said once: reading a lane of a packed word gives the byte
packed there, and reading a field of a packed status gives the field. -/

namespace Sys2Proof.Machine

/-- Reading the low part of a concatenation. -/
theorem extract_append_low {n m : Nat} (x : BitVec n) (y : BitVec m) (k w : Nat) (h : k + w ≤ m) :
    (x ++ y).extractLsb' k w = y.extractLsb' k w := by
  apply BitVec.eq_of_getLsbD_eq
  intro i hi
  have : k + i < m := by omega
  simp [BitVec.getLsbD_append, this]

/-- Reading the high part of a concatenation. -/
theorem extract_append_high {n m : Nat} (x : BitVec n) (y : BitVec m) (k w : Nat) (h : m ≤ k) :
    (x ++ y).extractLsb' k w = x.extractLsb' (k - m) w := by
  apply BitVec.eq_of_getLsbD_eq
  intro i hi
  have : ¬ k + i < m := by omega
  simp [BitVec.getLsbD_append, this, show k + i - m = k - m + i by omega]

/-- Reading every bit of a word. -/
theorem extract_all {n : Nat} (x : BitVec n) : x.extractLsb' 0 n = x := by
  apply BitVec.eq_of_getLsbD_eq
  intro i hi
  simp [hi]

/-- Lane j of a packed word is the byte packed there (rule R50). -/
@[simp] theorem lane_packLanes (f : Fin 8 → Byte) (j : Fin 8) : lane (packLanes f) j = f j := by
  match j with
  | 0 | 1 | 2 | 3 | 4 | 5 | 6 | 7 =>
    simp only [lane, packLanes]
    repeat rw [extract_append_high _ _ _ _ (by decide)]
    first
    | exact extract_all _
    | (rw [extract_append_low _ _ _ _ (by decide)]; exact extract_all _)

/-- A port word is its lanes (rule R50). -/
theorem packLanes_lane (w : Word) : packLanes (lane w) = w := by
  apply BitVec.eq_of_getLsbD_eq
  intro i hi
  simp only [packLanes, lane, BitVec.getLsbD_append, BitVec.getLsbD_extractLsb']
  interval_cases i <;> simp

/-- Two port words with the same lanes are the same word. -/
theorem word_ext {v w : Word} (h : ∀ j, lane v j = lane w j) : v = w := by
  rw [← packLanes_lane v, ← packLanes_lane w, funext h]

/-- The lanes of a packed word, in stream order. -/
@[simp] theorem lanesOf_packLanes (f : Fin 8 → Byte) : lanesOf (packLanes f) = laneNumbers.map f := by
  simp [lanesOf]

theorem lanesOf_length (w : Word) : (lanesOf w).length = 8 := by simp [lanesOf, laneNumbers]

section Status

variable (code : Code) (kcnt : BitVec 4) (ebyte : Byte) (len64 : Bool) (s : State)

@[simp] theorem statusCode_packStatus : statusCode (packStatus code kcnt ebyte len64 s) = codeBits code := by
  apply BitVec.eq_of_getLsbD_eq
  intro i hi
  simp only [statusCode, packStatus, BitVec.getLsbD_extractLsb', BitVec.getLsbD_setWidth, BitVec.getLsbD_append]
  interval_cases i <;> simp

@[simp] theorem statusKcnt_packStatus : statusKcnt (packStatus code kcnt ebyte len64 s) = kcnt := by
  apply BitVec.eq_of_getLsbD_eq
  intro i hi
  simp only [statusKcnt, packStatus, BitVec.getLsbD_extractLsb', BitVec.getLsbD_setWidth, BitVec.getLsbD_append]
  interval_cases i <;> simp

@[simp] theorem statusEbyte_packStatus : statusEbyte (packStatus code kcnt ebyte len64 s) = ebyte := by
  apply BitVec.eq_of_getLsbD_eq
  intro i hi
  simp only [statusEbyte, packStatus, BitVec.getLsbD_extractLsb', BitVec.getLsbD_setWidth, BitVec.getLsbD_append]
  interval_cases i <;> simp

@[simp] theorem statusLen64_packStatus : statusLen64 (packStatus code kcnt ebyte len64 s) = len64 := by
  simp only [statusLen64, packStatus, BitVec.getLsbD_setWidth, BitVec.getLsbD_append]
  simp

@[simp] theorem statusErr_packStatus : statusErr (packStatus code kcnt ebyte len64 s) = s.err := by
  simp only [statusErr, packStatus, BitVec.getLsbD_setWidth, BitVec.getLsbD_append]
  simp

@[simp] theorem statusFault_packStatus : statusFault (packStatus code kcnt ebyte len64 s) = s.fault := by
  simp only [statusFault, packStatus, BitVec.getLsbD_setWidth, BitVec.getLsbD_append]
  simp

@[simp] theorem statusMode_packStatus : statusMode (packStatus code kcnt ebyte len64 s) = modeBits s.mode := by
  apply BitVec.eq_of_getLsbD_eq
  intro i hi
  simp only [statusMode, packStatus, BitVec.getLsbD_extractLsb', BitVec.getLsbD_setWidth, BitVec.getLsbD_append]
  interval_cases i <;> simp

@[simp] theorem statusFinal_packStatus : statusFinal (packStatus code kcnt ebyte len64 s) = s.final := by
  simp only [statusFinal, packStatus, BitVec.getLsbD_setWidth, BitVec.getLsbD_append]
  simp

@[simp] theorem statusFcause_packStatus :
    statusFcause (packStatus code kcnt ebyte len64 s) = fcauseBits s.fcause := by
  apply BitVec.eq_of_getLsbD_eq
  intro i hi
  simp only [statusFcause, packStatus, BitVec.getLsbD_extractLsb', BitVec.getLsbD_setWidth, BitVec.getLsbD_append]
  interval_cases i <;> simp

@[simp] theorem statusReserved_packStatus : statusReserved (packStatus code kcnt ebyte len64 s) = 0 := by
  apply BitVec.eq_of_getLsbD_eq
  intro i hi
  simp only [statusReserved, packStatus, BitVec.getLsbD_extractLsb', BitVec.getLsbD_setWidth, BitVec.getLsbD_append]
  interval_cases i <;> simp

end Status

/-- The 65-bit result is split over RDATA and LEN64 without loss (rule R95). -/
theorem length_rejoins (L : Nat) (h : L < 2 ^ 65) :
    (lengthLow L).toNat + 2 ^ 64 * (lengthBit64 L).toNat = L := by
  simp only [lengthLow, lengthBit64, BitVec.toNat_ofNat, Nat.testBit_eq_decide_div_mod_eq]
  have hq : L / 2 ^ 64 = 0 ∨ L / 2 ^ 64 = 1 := by omega
  rcases hq with hq | hq
  · rw [hq]; simp only [Nat.zero_mod, Nat.zero_ne_one, decide_false, Bool.toNat_false]; omega
  · rw [hq]; simp only [decide_true, Bool.toNat_true]; omega

end Sys2Proof.Machine
end

