-- ==== Sys2Proof/Laws/State.lean ====
section
/-! SUPPORT. One lemma per field and register write of Machine/Ops.lean: what the field holds after the write. With these,
no later proof unfolds a record update. -/

namespace Sys2Proof.Machine

@[simp] theorem State.setResponse_mode (s : State) (w : BitVec 32) (d : Word) : (s.setResponse w d).mode = s.mode := rfl
@[simp] theorem State.setResponse_pos (s : State) (w : BitVec 32) (d : Word) : (s.setResponse w d).pos = s.pos := rfl
@[simp] theorem State.setResponse_final (s : State) (w : BitVec 32) (d : Word) : (s.setResponse w d).final = s.final := rfl
@[simp] theorem State.setResponse_err (s : State) (w : BitVec 32) (d : Word) : (s.setResponse w d).err = s.err := rfl
@[simp] theorem State.setResponse_epos (s : State) (w : BitVec 32) (d : Word) : (s.setResponse w d).epos = s.epos := rfl
@[simp] theorem State.setResponse_ebyte (s : State) (w : BitVec 32) (d : Word) : (s.setResponse w d).ebyte = s.ebyte := rfl
@[simp] theorem State.setResponse_fault (s : State) (w : BitVec 32) (d : Word) : (s.setResponse w d).fault = s.fault := rfl
@[simp] theorem State.setResponse_fcause (s : State) (w : BitVec 32) (d : Word) : (s.setResponse w d).fcause = s.fcause := rfl
@[simp] theorem State.setResponse_rstat (s : State) (w : BitVec 32) (d : Word) : (s.setResponse w d).rstat = w := rfl
@[simp] theorem State.setResponse_rdata (s : State) (w : BitVec 32) (d : Word) : (s.setResponse w d).rdata = d := rfl
@[simp] theorem State.setResponse_host (s : State) (w : BitVec 32) (d : Word) : (s.setResponse w d).host = s.host := rfl

@[simp] theorem State.setStream_mode (s : State) (m : Mode) : (s.setStream m).mode = m := rfl
@[simp] theorem State.setStream_pos (s : State) (m : Mode) : (s.setStream m).pos = 0 := rfl
@[simp] theorem State.setStream_final (s : State) (m : Mode) : (s.setStream m).final = false := rfl
@[simp] theorem State.setStream_err (s : State) (m : Mode) : (s.setStream m).err = false := rfl
@[simp] theorem State.setStream_epos (s : State) (m : Mode) : (s.setStream m).epos = 0 := rfl
@[simp] theorem State.setStream_ebyte (s : State) (m : Mode) : (s.setStream m).ebyte = 0 := rfl
@[simp] theorem State.setStream_fault (s : State) (m : Mode) : (s.setStream m).fault = s.fault := rfl
@[simp] theorem State.setStream_fcause (s : State) (m : Mode) : (s.setStream m).fcause = s.fcause := rfl
@[simp] theorem State.setStream_rstat (s : State) (m : Mode) : (s.setStream m).rstat = s.rstat := rfl
@[simp] theorem State.setStream_rdata (s : State) (m : Mode) : (s.setStream m).rdata = s.rdata := rfl
@[simp] theorem State.setStream_host (s : State) (m : Mode) : (s.setStream m).host = s.host := rfl

@[simp] theorem State.acceptGroup_mode (s : State) (r : Nat) (b : Bool) : (s.acceptGroup r b).mode = s.mode := rfl
@[simp] theorem State.acceptGroup_pos (s : State) (r : Nat) (b : Bool) : (s.acceptGroup r b).pos = s.pos + BitVec.ofNat 64 r := rfl
@[simp] theorem State.acceptGroup_final (s : State) (r : Nat) (b : Bool) : (s.acceptGroup r b).final = b := rfl
@[simp] theorem State.acceptGroup_err (s : State) (r : Nat) (b : Bool) : (s.acceptGroup r b).err = s.err := rfl
@[simp] theorem State.acceptGroup_epos (s : State) (r : Nat) (b : Bool) : (s.acceptGroup r b).epos = s.epos := rfl
@[simp] theorem State.acceptGroup_ebyte (s : State) (r : Nat) (b : Bool) : (s.acceptGroup r b).ebyte = s.ebyte := rfl
@[simp] theorem State.acceptGroup_fault (s : State) (r : Nat) (b : Bool) : (s.acceptGroup r b).fault = s.fault := rfl
@[simp] theorem State.acceptGroup_fcause (s : State) (r : Nat) (b : Bool) : (s.acceptGroup r b).fcause = s.fcause := rfl
@[simp] theorem State.acceptGroup_rstat (s : State) (r : Nat) (b : Bool) : (s.acceptGroup r b).rstat = s.rstat := rfl
@[simp] theorem State.acceptGroup_rdata (s : State) (r : Nat) (b : Bool) : (s.acceptGroup r b).rdata = s.rdata := rfl
@[simp] theorem State.acceptGroup_host (s : State) (r : Nat) (b : Bool) : (s.acceptGroup r b).host = s.host := rfl

@[simp] theorem State.setError_mode (s : State) (p : Word) (c : Byte) : (s.setError p c).mode = s.mode := rfl
@[simp] theorem State.setError_pos (s : State) (p : Word) (c : Byte) : (s.setError p c).pos = s.pos := rfl
@[simp] theorem State.setError_final (s : State) (p : Word) (c : Byte) : (s.setError p c).final = s.final := rfl
@[simp] theorem State.setError_err (s : State) (p : Word) (c : Byte) : (s.setError p c).err = true := rfl
@[simp] theorem State.setError_epos (s : State) (p : Word) (c : Byte) : (s.setError p c).epos = p := rfl
@[simp] theorem State.setError_ebyte (s : State) (p : Word) (c : Byte) : (s.setError p c).ebyte = c := rfl
@[simp] theorem State.setError_fault (s : State) (p : Word) (c : Byte) : (s.setError p c).fault = s.fault := rfl
@[simp] theorem State.setError_fcause (s : State) (p : Word) (c : Byte) : (s.setError p c).fcause = s.fcause := rfl
@[simp] theorem State.setError_rstat (s : State) (p : Word) (c : Byte) : (s.setError p c).rstat = s.rstat := rfl
@[simp] theorem State.setError_rdata (s : State) (p : Word) (c : Byte) : (s.setError p c).rdata = s.rdata := rfl
@[simp] theorem State.setError_host (s : State) (p : Word) (c : Byte) : (s.setError p c).host = s.host := rfl

@[simp] theorem State.setFault_mode (s : State) (c : FaultCause) : (s.setFault c).mode = s.mode := rfl
@[simp] theorem State.setFault_pos (s : State) (c : FaultCause) : (s.setFault c).pos = s.pos := rfl
@[simp] theorem State.setFault_final (s : State) (c : FaultCause) : (s.setFault c).final = s.final := rfl
@[simp] theorem State.setFault_err (s : State) (c : FaultCause) : (s.setFault c).err = s.err := rfl
@[simp] theorem State.setFault_epos (s : State) (c : FaultCause) : (s.setFault c).epos = s.epos := rfl
@[simp] theorem State.setFault_ebyte (s : State) (c : FaultCause) : (s.setFault c).ebyte = s.ebyte := rfl
@[simp] theorem State.setFault_fault (s : State) (c : FaultCause) : (s.setFault c).fault = true := rfl
@[simp] theorem State.setFault_fcause (s : State) (c : FaultCause) : (s.setFault c).fcause = some c := rfl
@[simp] theorem State.setFault_rstat (s : State) (c : FaultCause) : (s.setFault c).rstat = s.rstat := rfl
@[simp] theorem State.setFault_rdata (s : State) (c : FaultCause) : (s.setFault c).rdata = s.rdata := rfl
@[simp] theorem State.setFault_host (s : State) (c : FaultCause) : (s.setFault c).host = s.host := rfl

@[simp] theorem State.setHost_mode (s : State) (h : List HostAction) : (s.setHost h).mode = s.mode := rfl
@[simp] theorem State.setHost_pos (s : State) (h : List HostAction) : (s.setHost h).pos = s.pos := rfl
@[simp] theorem State.setHost_final (s : State) (h : List HostAction) : (s.setHost h).final = s.final := rfl
@[simp] theorem State.setHost_err (s : State) (h : List HostAction) : (s.setHost h).err = s.err := rfl
@[simp] theorem State.setHost_epos (s : State) (h : List HostAction) : (s.setHost h).epos = s.epos := rfl
@[simp] theorem State.setHost_ebyte (s : State) (h : List HostAction) : (s.setHost h).ebyte = s.ebyte := rfl
@[simp] theorem State.setHost_fault (s : State) (h : List HostAction) : (s.setHost h).fault = s.fault := rfl
@[simp] theorem State.setHost_fcause (s : State) (h : List HostAction) : (s.setHost h).fcause = s.fcause := rfl
@[simp] theorem State.setHost_rstat (s : State) (h : List HostAction) : (s.setHost h).rstat = s.rstat := rfl
@[simp] theorem State.setHost_rdata (s : State) (h : List HostAction) : (s.setHost h).rdata = s.rdata := rfl
@[simp] theorem State.setHost_host (s : State) (h : List HostAction) : (s.setHost h).host = h := rfl

/-! A later write of the same registers hides an earlier one, and writes of different registers commute. -/

@[simp] theorem State.setHost_setHost (s : State) (h k : List HostAction) : (s.setHost h).setHost k = s.setHost k := rfl

@[simp] theorem State.setHost_self (s : State) : s.setHost s.host = s := rfl

@[simp] theorem State.setResponse_setResponse (s : State) (w v : BitVec 32) (d e : Word) :
    (s.setResponse w d).setResponse v e = s.setResponse v e := rfl

@[simp] theorem State.setStream_setStream (s : State) (m n : Mode) : (s.setStream m).setStream n = s.setStream n := rfl

@[simp] theorem State.present_host (s : State) (q : Request) : (s.present q).host = .command q :: s.host := rfl

@[simp] theorem State.present_setHost (s : State) (q : Request) : (s.present q).setHost s.host = s := rfl

end Sys2Proof.Machine
end

