-- ==== Sys2Proof/Laws/Ops.lean ====
section
/-! SUPPORT. One lemma for each shared operation of Machine/Ops.lean, saying all that it does, and the inversion lemmas of
`exec` and `step`: everything a command, or a step, can do. Later proofs cite these and do not unfold the operations. -/

namespace Sys2Proof.Machine

/-- `respond` writes RSTAT and RDATA and nothing else (rule R27). -/
theorem respond_answered (code : Code) {kcnt : Nat} (ebyte : Byte) (len64 : Bool) (data : Word) (s : State)
    (hk : kcnt < 16) : Answered s (respond code kcnt ebyte len64 data s) code kcnt ebyte len64 data where
  frame := rfl
  rdata := rfl
  code := statusCode_packStatus ..
  kcnt := by
    show (statusKcnt (packStatus _ _ _ _ _)).toNat = _
    rw [statusKcnt_packStatus, BitVec.toNat_ofNat]
    exact Nat.mod_eq_of_lt hk
  ebyte := statusEbyte_packStatus ..
  len64 := statusLen64_packStatus ..
  err := statusErr_packStatus ..
  fault := statusFault_packStatus ..
  mode := statusMode_packStatus ..
  final := statusFinal_packStatus ..
  fcause := statusFcause_packStatus ..
  reserved := statusReserved_packStatus ..

/-- The fault action writes FAULT, FCAUSE and the response (rule R174). -/
theorem raiseFault_answered (c : FaultCause) (s : State) :
    Answered { s with fault := true, fcause := some c } (raiseFault c s) (.violation c) 0 0 false 0 :=
  respond_answered _ _ _ _ (s.setFault c) (by decide)

/-- A faulted unit writes the response and nothing else (rule R175). -/
theorem respondFaulted_answered (s : State) : Answered s (respondFaulted s) .faulted 0 0 false 0 :=
  respond_answered _ _ _ _ s (by decide)

theorem unlessFaulted_of_fault {s : State} (h : s.fault = true) (r : Result) :
    unlessFaulted s r = .next (respondFaulted s) := by simp [unlessFaulted, h]

theorem unlessFaulted_of_no_fault {s : State} (h : s.fault = false) (r : Result) : unlessFaulted s r = r := by
  simp [unlessFaulted, h]

section RespondFields

variable (code : Code) (kcnt : Nat) (ebyte : Byte) (len64 : Bool) (data : Word) (s : State)

@[simp] theorem respond_mode : (respond code kcnt ebyte len64 data s).mode = s.mode := rfl
@[simp] theorem respond_pos : (respond code kcnt ebyte len64 data s).pos = s.pos := rfl
@[simp] theorem respond_final : (respond code kcnt ebyte len64 data s).final = s.final := rfl
@[simp] theorem respond_err : (respond code kcnt ebyte len64 data s).err = s.err := rfl
@[simp] theorem respond_epos : (respond code kcnt ebyte len64 data s).epos = s.epos := rfl
@[simp] theorem respond_ebyte : (respond code kcnt ebyte len64 data s).ebyte = s.ebyte := rfl
@[simp] theorem respond_fault : (respond code kcnt ebyte len64 data s).fault = s.fault := rfl
@[simp] theorem respond_fcause : (respond code kcnt ebyte len64 data s).fcause = s.fcause := rfl
@[simp] theorem respond_rstat : (respond code kcnt ebyte len64 data s).rstat =
    packStatus code (BitVec.ofNat 4 kcnt) ebyte len64 s := rfl
@[simp] theorem respond_rdata : (respond code kcnt ebyte len64 data s).rdata = data := rfl
@[simp] theorem respond_host : (respond code kcnt ebyte len64 data s).host = s.host := rfl

end RespondFields

/-- Everything a command does in a faulted unit (rule R175). -/
theorem exec_of_fault {s : State} (h : s.fault = true) (i : Instr) : exec i s = .next (respondFaulted s) := by
  cases i <;> exact unlessFaulted_of_fault h _

/-- What a command can do in a unit with FAULT = 0: each alternative names the state it leads to and the checks that
lead there (rule R176). -/
inductive Effect (s : State) : Instr → State → Prop where
  /-- A contract violation. -/
  | violation (i : Instr) (c : FaultCause) : Effect s i (raiseFault c s)
  /-- STAT, LENE, LENB: a response and nothing else. -/
  | report (i : Instr) (ebyte : Byte) (len64 : Bool) (data : Word) (hi : i = .stat ∨ (∃ n, i = .lene n) ∨ ∃ n, i = .lenb n) :
      Effect s i (respond .ok 0 ebyte len64 data s)
  /-- SENC opens an encode stream. -/
  | openEnc : Effect s .senc (respond .ok 0 0 false 0 (s.setStream .enc))
  /-- SDEC opens a decode stream. -/
  | openDec : Effect s .sdec (respond .ok 0 0 false 0 (s.setStream .dec))
  /-- FIN closes the stream. -/
  | close (code : Code) (ebyte : Byte) (len64 : Bool) (data : Word) (hc : code = .ok ∨ code = .invalidInput)
      (hm : s.mode ≠ .idle) : Effect s .fin (respond code 0 ebyte len64 data (s.setStream .idle))
  /-- EBLK accepts a group. -/
  | encode (cnt : BitVec 4) (din : Word) (hc : legalEncCount cnt = true) (hm : s.mode = .enc) (hf : s.final = false)
      (ho : s.pos.toNat + cnt.toNat ≤ Config.posMax) : Effect s (.eblk cnt din) (encodeGroup cnt.toNat din s)
  /-- DBLK reports the stored error. -/
  | stored (cnt : BitVec 4) (din : Word) (hm : s.mode = .dec) (hf : s.final = false) (he : s.err = true) :
      Effect s (.dblk cnt din) (reportStoredError s)
  /-- DBLK finds an invalid symbol. -/
  | reject (cnt : BitVec 4) (din : Word) (e : Fin 8) (hc : legalDecCount cnt = true) (hm : s.mode = .dec)
      (hf : s.final = false) (he : s.err = false) (ho : s.pos.toNat + cnt.toNat ≤ Config.posMax)
      (hi : firstInvalid din cnt.toNat = some e) : Effect s (.dblk cnt din) (rejectGroup e (lane din e) s)
  /-- DBLK accepts a group. -/
  | deliver (cnt : BitVec 4) (din : Word) (hc : legalDecCount cnt = true) (hm : s.mode = .dec)
      (hf : s.final = false) (he : s.err = false) (ho : s.pos.toNat + cnt.toNat ≤ Config.posMax)
      (hi : firstInvalid din cnt.toNat = none) :
      Effect s (.dblk cnt din)
        (deliverGroup cnt.toNat (keptWord (validIdx din cnt.toNat) (kDec cnt.toNat)) (kDec cnt.toNat) s)

theorem not_overflows {s : State} {r : Nat} (h : ¬ overflows s r = true) : s.pos.toNat + r ≤ Config.posMax := by
  simpa [overflows] using h

theorem execEblk_effect {cnt : BitVec 4} {din : Word} {s t : State} (hf : s.fault = false)
    (h : execEblk cnt din s = .next t) : Effect s (.eblk cnt din) t := by
  rw [execEblk, unlessFaulted_of_no_fault hf] at h
  split at h
  · cases h; exact .violation _ _
  · rename_i hc
    split at h
    · cases h; exact .violation _ _
    · rename_i hm
      split at h
      · cases h; exact .violation _ _
      · rename_i ho
        cases h
        exact .encode cnt din (by simpa using hc) (by simpa using (not_or.mp hm).1)
          (by simpa using (not_or.mp hm).2) (not_overflows ho)

theorem execDblk_effect {cnt : BitVec 4} {din : Word} {s t : State} (hf : s.fault = false)
    (h : execDblk cnt din s = .next t) : Effect s (.dblk cnt din) t := by
  rw [execDblk, unlessFaulted_of_no_fault hf] at h
  split at h
  · cases h; exact .violation _ _
  · rename_i hc
    split at h
    · cases h; exact .violation _ _
    · rename_i hm
      have hmode : s.mode = .dec := by simpa using (not_or.mp hm).1
      have hfinal : s.final = false := by simpa using (not_or.mp hm).2
      split at h
      · rename_i he
        cases h; exact .stored cnt din hmode hfinal he
      · rename_i he
        split at h
        · cases h; exact .violation _ _
        · rename_i ho
          cases h
          unfold decodeGroup decBlock
          cases hi : firstInvalid din cnt.toNat with
          | some e => exact .reject cnt din e (by simpa using hc) hmode hfinal (by simpa using he) (not_overflows ho) hi
          | none => exact .deliver cnt din (by simpa using hc) hmode hfinal (by simpa using he) (not_overflows ho) hi

theorem execFin_effect {s t : State} (hf : s.fault = false) (h : execFin s = .next t) : Effect s .fin t := by
  rw [execFin, unlessFaulted_of_no_fault hf] at h
  split at h
  · cases h; exact .violation _ _
  · rename_i hm
    cases h; exact .close _ _ _ _ (.inl rfl) (by simp [hm])
  · rename_i hm
    cases h
    unfold finishDecode
    split
    · exact .close _ _ _ _ (.inr rfl) (by simp [hm])
    · exact .close _ _ _ _ (.inl rfl) (by simp [hm])

/-- The inversion lemma of `exec` for a unit with FAULT = 0. -/
theorem exec_effect {i : Instr} {s t : State} (hf : s.fault = false) (h : exec i s = .next t) : Effect s i t := by
  cases i with
  | stat =>
    rw [exec, execStat, unlessFaulted_of_no_fault hf] at h
    cases h; exact .report _ _ _ _ (.inl rfl)
  | senc =>
    rw [exec, execSenc, unlessFaulted_of_no_fault hf] at h
    cases h; exact .openEnc
  | sdec =>
    rw [exec, execSdec, unlessFaulted_of_no_fault hf] at h
    cases h; exact .openDec
  | eblk cnt din => exact execEblk_effect hf h
  | dblk cnt din => exact execDblk_effect hf h
  | fin => exact execFin_effect hf h
  | lene n =>
    rw [exec, execLene, unlessFaulted_of_no_fault hf] at h
    cases h; exact .report _ _ _ _ (.inr (.inl ⟨n, rfl⟩))
  | lenb n =>
    rw [exec, execLenb, unlessFaulted_of_no_fault hf] at h
    cases h; exact .report _ _ _ _ (.inr (.inr ⟨n, rfl⟩))

/-- The inversion lemma of `step`: an idle turn, a command in a faulted unit, a rejected word, a decoded command, or a
reset. -/
theorem step_cases {s t : State} (h : step s = .next t) :
    (s.host = [] ∧ t = s) ∨
    (∃ q rest, s.host = .command q :: rest ∧ s.fault = true ∧ t = respondFaulted (s.setHost rest)) ∨
    (∃ q rest c, s.host = .command q :: rest ∧ s.fault = false ∧ decodeRequest q = .error c ∧
      t = raiseFault c (s.setHost rest)) ∨
    (∃ q rest i, s.host = .command q :: rest ∧ s.fault = false ∧ decodeRequest q = .ok i ∧
      Effect (s.setHost rest) i t) ∨
    (∃ o rest, s.host = .rst o :: rest ∧ t = State.reset.setHost rest) := by
  unfold step takeTurn at h
  cases hh : s.host with
  | nil => rw [hh] at h; cases h; exact .inl ⟨rfl, rfl⟩
  | cons a rest =>
    rw [hh] at h
    refine .inr ?_
    cases a with
    | rst o => cases h; exact .inr (.inr (.inr ⟨o, rest, rfl, rfl⟩))
    | command q =>
      simp only [performAction, runRequest] at h
      cases hf : s.fault with
      | true =>
        refine .inl ⟨q, rest, rfl, rfl, ?_⟩
        cases hd : decodeRequest q with
        | error c =>
          rw [hd] at h
          simp only [rejectWord] at h
          rw [unlessFaulted_of_fault (by simpa using hf)] at h
          cases h; rfl
        | ok i =>
          rw [hd] at h
          simp only at h
          rw [exec_of_fault (by simpa using hf)] at h
          cases h; rfl
      | false =>
        cases hd : decodeRequest q with
        | error c =>
          rw [hd] at h
          simp only [rejectWord] at h
          rw [unlessFaulted_of_no_fault (by simpa using hf)] at h
          cases h; exact .inr (.inl ⟨q, rest, c, rfl, rfl, hd, rfl⟩)
        | ok i =>
          rw [hd] at h
          exact .inr (.inr (.inl ⟨q, rest, i, rfl, rfl, hd, exec_effect (by simpa using hf) h⟩))

/-- Issuing a command performs it on the state as it was: the host's other actions are untouched. -/
theorem issue_eq (q : Request) (s : State) : issue q s = runRequest q s := rfl

end Sys2Proof.Machine
end

