-- ==== Sys2Proof/Laws/PerInstr.lean ====
section
/-! SUPPORT. The per-instruction family LegalWord: the encoder spells each well-formed command by one of the 19 legal
command words of rule R75, in the class rule R75 lists it in. -/

namespace Sys2Proof.Laws.LegalWord

/-- The command words of rule R75's first three rows that spell the command's mnemonic. -/
def wordsOf : Instr → List CmdWord
  | .stat => [0x00]
  | .senc => [0x10]
  | .sdec => [0x20]
  | .eblk _ _ => [0x31, 0x32, 0x33, 0x34, 0x35]
  | .dblk _ _ => [0x41, 0x42, 0x43, 0x44, 0x45, 0x46, 0x47, 0x48]
  | .fin => [0x50]
  | .lene _ => [0x60]
  | .lenb _ => [0x70]

def Statement (i : Instr) : Prop := i.wellFormed = true → (encode i).cmd ∈ wordsOf i

theorem stat : Statement .stat := fun _ => by decide

theorem senc : Statement .senc := fun _ => by decide

theorem sdec : Statement .sdec := fun _ => by decide

theorem eblk (cnt : BitVec 4) (din : Word) : Statement (.eblk cnt din) := by
  show legalEncCount cnt = true → cmdWord 3 cnt ∈ wordsOf (.eblk 0 0)
  revert cnt; decide

theorem dblk (cnt : BitVec 4) (din : Word) : Statement (.dblk cnt din) := by
  show legalDecCount cnt = true → cmdWord 4 cnt ∈ wordsOf (.dblk 0 0)
  revert cnt; decide

theorem fin : Statement .fin := fun _ => by decide

theorem lene (n : Word) : Statement (.lene n) := fun _ => by
  show cmdWord 6 0 ∈ [(0x60 : CmdWord)]; decide

theorem lenb (n : Word) : Statement (.lenb n) := fun _ => by
  show cmdWord 7 0 ∈ [(0x70 : CmdWord)]; decide

end Sys2Proof.Laws.LegalWord
end

