-- ==== Sys2Proof/Laws/Run.lean ====
section
/-! SUPPORT. The host's side: how issuing commands composes, and how a byte sequence falls into groups. -/

namespace Sys2Proof.Machine

theorem issueAll_cons {q : Request} {qs : List Request} {s t : State} (h : issue q s = .next t) :
    issueAll (q :: qs) s = (issueAll qs t).map fun p => (t.response :: p.1, p.2) := by
  simp [issueAll, h]

/-- Issuing two scripts one after the other. -/
theorem issueAll_append (xs ys : List Request) : ∀ {s t u : State} {rs ss : List Response},
    issueAll xs s = some (rs, t) → issueAll ys t = some (ss, u) → issueAll (xs ++ ys) s = some (rs ++ ss, u) := by
  induction xs with
  | nil =>
    intro s t u rs ss h k
    cases h; exact k
  | cons x xs ih =>
    intro s t u rs ss h k
    simp only [issueAll] at h
    cases hx : issue x s with
    | fault f => cases f
    | refused r => simp [hx] at h
    | next v =>
      rw [hx] at h
      cases hr : issueAll xs v with
      | none => simp [hr] at h
      | some p =>
        obtain ⟨ps, w⟩ := p
        simp only [hr, Option.map_some, Option.some.injEq, Prod.mk.injEq] at h
        obtain ⟨rfl, rfl⟩ := h
        rw [List.cons_append, issueAll_cons hx, ih hr k]
        rfl

/-- More fuel than the list is long changes nothing. -/
theorem groupsOf_fuel {α : Type} {k : Nat} (hk : 0 < k) : ∀ {f g : Nat} {l : List α},
    l.length ≤ f → l.length ≤ g → groupsOf k f l = groupsOf k g l := by
  intro f
  induction f with
  | zero =>
    intro g l hf _
    have : l = [] := List.length_eq_zero_iff.mp (by omega)
    subst this; cases g <;> rfl
  | succ f ih =>
    intro g l hf hg
    cases l with
    | nil => cases g <;> rfl
    | cons a as =>
      cases g with
      | zero => simp at hg
      | succ g =>
        simp only [groupsOf]
        congr 1
        apply ih <;> simp only [List.length_drop, List.length_cons] at * <;> omega

/-- A group and the rest: the unfolding of `groupsOf` with enough fuel everywhere. -/
theorem groupsOf_step {α : Type} {k : Nat} (hk : 0 < k) {l : List α} (hl : l ≠ []) :
    groupsOf k l.length l = l.take k :: groupsOf k (l.drop k).length (l.drop k) := by
  cases l with
  | nil => exact absurd rfl hl
  | cons a as =>
    rw [List.length_cons, groupsOf]
    congr 1
    apply groupsOf_fuel hk
    · simp only [List.length_drop, List.length_cons]; omega
    · exact Nat.le_refl _

/-- The number of groups (rule R211). -/
theorem groupsOf_length {α : Type} {k : Nat} (hk : 0 < k) : ∀ {n : Nat} {l : List α}, l.length = n →
    (groupsOf k l.length l).length = ceilDiv l.length k := by
  intro n
  induction n using Nat.strong_induction_on with
  | _ n ih =>
    intro l hn
    cases hl : l with
    | nil => simp [groupsOf, ceilDiv, Nat.div_eq_of_lt (show k - 1 < k by omega)]
    | cons a as =>
      rw [← hl, groupsOf_step hk (by simp [hl]), List.length_cons]
      have h1 : l.length = as.length + 1 := by rw [hl]; rfl
      have h2 : (l.drop k).length = l.length - k := List.length_drop ..
      rw [ih (l.drop k).length (by omega) rfl, h2]
      unfold ceilDiv
      rcases Nat.lt_or_ge l.length k with hlt | hge
      · rw [show l.length - k = 0 by omega, Nat.div_eq_of_lt (show 0 + k - 1 < k by omega)]
        rw [show l.length + k - 1 = l.length - 1 + k by omega, Nat.add_div_right _ hk,
          Nat.div_eq_of_lt (show l.length - 1 < k by omega)]
      · rw [show l.length + k - 1 = l.length - k + k - 1 + k by omega, Nat.add_div_right _ hk]

end Sys2Proof.Machine
end

