-- ==== Sys2Proof/Tests/Slice0.lean ====
section
/-! SUPPORT. The model's own tests. Expected values come from the tables of spec/95_test_vectors.md (section named with
each test) and from the encoding and ROM tables; the last part shows, for each statement with hypotheses, a state and
operands that meet them. -/

open Sys2Proof Sys2Proof.Machine

namespace Sys2Proof.Tests

/-! ## Well-formedness: each check refuses an ill-formed term (rule R72) -/

theorem test_eblk_count_below_range_is_ill_formed : (Instr.eblk 0 0).wellFormed = false := by decide
theorem test_eblk_count_above_range_is_ill_formed : (Instr.eblk 6 0).wellFormed = false := by decide
theorem test_dblk_count_below_range_is_ill_formed : (Instr.dblk 0 0).wellFormed = false := by decide
theorem test_dblk_count_above_range_is_ill_formed : (Instr.dblk 9 0).wellFormed = false := by decide
theorem test_range_ends_are_well_formed :
    (Instr.eblk 1 0).wellFormed = true ∧ (Instr.eblk 5 0).wellFormed = true ∧
    (Instr.dblk 1 0).wellFormed = true ∧ (Instr.dblk 8 0).wellFormed = true := by decide

/-! ## Decoding: words written bit by bit from the table of rule R71 -/

theorem test_decode_stat : decodeTableWord 8 0b00000000 = some .stat := by decide
theorem test_decode_senc : decodeTableWord 8 0b00010000 = some .senc := by decide
theorem test_decode_sdec : decodeTableWord 8 0b00100000 = some .sdec := by decide
theorem test_decode_eblk : decodeTableWord 8 0b00110101 = some (.eblk 5 0) := by decide
theorem test_decode_dblk : decodeTableWord 8 0b01000010 = some (.dblk 2 0) := by decide
theorem test_decode_fin : decodeTableWord 8 0b01010000 = some .fin := by decide
theorem test_decode_lene : decodeTableWord 72 (0xB * 256 + 0b01100000) = some (.lene 11) := by decide
theorem test_decode_lenb : decodeTableWord 72 (0x6 * 256 + 0b01110000) = some (.lenb 6) := by decide
/-- 95_test_vectors.md 3.5: reserved words, and words with a count that must be 0, are ILLEGAL_CMD. -/
theorem test_decode_refuses_illegal_words :
    decodeCmd 0x80 0 = .error .illegalCmd ∧ decodeCmd 0xFF 0 = .error .illegalCmd ∧
    decodeCmd 0x01 0 = .error .illegalCmd ∧ decodeCmd 0x61 5 = .error .illegalCmd := ⟨rfl, rfl, rfl, rfl⟩
/-- 95_test_vectors.md 3.5: illegal counts are BAD_COUNT. -/
theorem test_decode_refuses_bad_counts :
    decodeCmd 0x30 0 = .error .badCount ∧ decodeCmd 0x36 0 = .error .badCount ∧
    decodeCmd 0x40 0 = .error .badCount ∧ decodeCmd 0x49 0 = .error .badCount := ⟨rfl, rfl, rfl, rfl⟩
/-- 95_test_vectors.md P1, line 2: the assembled form `0x35 0x68656C6C6F000000` of `eblk.5 "hello"`. -/
theorem test_assemble_eblk_hello :
    eblkRequest [0x68, 0x65, 0x6C, 0x6C, 0x6F] = { cmd := 0x35, din := 0x68656C6C6F000000 } := by decide
/-- 95_test_vectors.md P2, line 4: the assembled form of `dblk.2 "cg"`. -/
theorem test_assemble_dblk_cg : dblkRequest [0x63, 0x67] = { cmd := 0x42, din := 0x6367000000000000 } := by decide

/-! ## One step on a small state -/

def encAt (pos : Word) (final : Bool) : State := { State.reset with mode := .enc, pos := pos, final := final }
def decAt (pos : Word) (final : Bool) : State := { State.reset with mode := .dec, pos := pos, final := final }
/-- The state after line 3 of program P3. -/
def decFailed : State := { decAt 8 false with err := true, epos := 8, ebyte := 0xC3 }
/-- The state after line 1 of program P4. -/
def unitFaulted : State := { State.reset with fault := true, fcause := some .seqErr }

/-- RSTAT, RDATA and POS after one command; `none` if it has no next state. -/
def after (cmd : CmdWord) (din : Word) (s : State) : Option (BitVec 32 × Word × Word) :=
  match issue { cmd := cmd, din := din } s with
  | .next t => some (t.rstat, t.rdata, t.pos)
  | .fault _ => none
  | .refused _ => none

/-- 3.4, the STAT row of an encode stream. -/
theorem test_stat_in_enc : after 0x00 0 (encAt 6 true) = some (0x00280000, 6, 6) := by decide
/-- 3.4, the STAT row after a decode error. -/
theorem test_stat_after_error : after 0x00 0 decFailed = some (0x0012C300, 8, 8) := by decide
/-- 3.2, SENC after reset. -/
theorem test_senc_after_reset : after 0x10 0 State.reset = some (0x00080000, 0, 0) := by decide
/-- 3.3, SDEC after reset. -/
theorem test_sdec_after_reset : after 0x20 0 State.reset = some (0x00100000, 0, 0) := by decide
/-- Rule R129's corner case: SDEC abandons an open stream and its error. -/
theorem test_sdec_abandons_a_failed_stream : after 0x20 0 decFailed = some (0x00100000, 0, 0) := by decide
/-- 3.2, r = 4, with the ignored lanes of DIN set. -/
theorem test_eblk_partial_group :
    after 0x34 0x01020304FFFFFFFF (encAt 5 false) = some (0x00280070, 0x3034313036313030, 9) := by decide
/-- 3.5, the POS limit: POS 2^64 - 3 takes 2 bytes and refuses 3. -/
theorem test_eblk_position_limit :
    after 0x32 0x6162000000000000 (encAt 0xFFFFFFFFFFFFFFFD false) =
      some (0x00280040, 0x6335683030303030, 0xFFFFFFFFFFFFFFFF) ∧
    after 0x33 0x6162630000000000 (encAt 0xFFFFFFFFFFFFFFFD false) = some (0x014C0005, 0, 0xFFFFFFFFFFFFFFFD) := by
  decide
/-- P7, line 7. -/
theorem test_dblk_full_group :
    after 0x48 0x6373717079726B31 (decAt 0 false) = some (0x00100050, 0x666F6F6261000000, 8) := by decide
/-- P3, line 3, and line 4 on the state it leaves: the second group is not scanned. -/
theorem test_dblk_first_error_stays :
    after 0x42 0xC3AB000000000000 (decAt 8 false) = some (0x0012C301, 8, 8) ∧
    after 0x41 0x3000000000000000 decFailed = some (0x0012C301, 8, 8) := by decide
/-- 3.4, FIN of an encode stream at POS_MAX: a 65-bit length. -/
theorem test_fin_length_of_65_bits :
    after 0x50 0 (encAt 0xFFFFFFFFFFFFFFFF true) = some (0x00010000, 0x9999999999999998, 0) := by decide
/-- 3.4, FIN of a failed and of a good decode stream. -/
theorem test_fin_of_decode_streams :
    after 0x50 0 decFailed = some (0x0000C301, 8, 0) ∧ after 0x50 0 (decAt 18 true) = some (0, 0xB, 0) := by decide
/-- P5, line 3. -/
theorem test_lene_of_65_bits :
    after 0x60 0xFFFFFFFFFFFFFFFF State.reset = some (0x00010000, 0x9999999999999998, 0) := by decide
/-- 3.1, the row n = 0xFFFFFFFFFFFFFFFE, where LENE and LENB differ. -/
theorem test_lenb_differs_from_lene :
    after 0x70 0xFFFFFFFFFFFFFFFE State.reset = some (0x00010000, 0x9999999999999998, 0) ∧
    after 0x60 0xFFFFFFFFFFFFFFFE State.reset = some (0x00010000, 0x9999999999999997, 0) := by decide
/-- 3.5, check order: BAD_COUNT before SEQ_ERR, FAULTED before ILLEGAL_CMD. -/
theorem test_check_order :
    after 0x30 0 State.reset = some (0x00C40003, 0, 0) ∧ after 0xFF 0 unitFaulted = some (0x01040006, 0, 0) := by
  decide
/-- Rule R200: RST leads to the reset state, the host's next actions kept. -/
theorem test_reset_clears_a_fault :
    (match step { unitFaulted with host := [.rst (some { cmd := 0x10, din := 0 }), .rst none] } with
      | .next t => decide (t = { State.reset with host := [.rst none] })
      | .fault _ => false
      | .refused _ => false) = true := by decide
/-- A word placed by withFetchWord is the very next command. -/
theorem test_fetch_word_runs_first :
    (match step (State.reset.withFetchWord 8 0x10) with
      | .next t => decide (t.mode = .enc ∧ t.host = [])
      | .fault _ => false
      | .refused _ => false) = true := by decide

/-! ## The reference codec on bit strings -/

/-- P1, line 2: the first group of the source's example. -/
theorem test_canonical_hello : canonicalSymbols [0x68, 0x65, 0x6C, 0x6C, 0x6F] =
    [0x64, 0x31, 0x6A, 0x70, 0x72, 0x76, 0x33, 0x66] := by decide
/-- P7: "e8" is the canonical encoding of "r", and decodes to it. -/
theorem test_canonical_r : canonicalSymbols [0x72] = [0x65, 0x38] ∧ canonicalBytes [0x65, 0x38] = [0x72] := by decide
/-- W3: the first character of "01234567ë" outside the alphabet is at index 8. -/
theorem test_first_invalid_symbol :
    firstInvalidSymbol [0x30, 0x31, 0x32, 0x33, 0x34, 0x35, 0x36, 0x37, 0xC3, 0xAB] = some 8 := by decide

/-! ## Witnesses: the hypotheses of each statement can be met together -/

theorem witness_CommandMapIsComplete :
    (1 ≤ (1 : BitVec 4).toNat ∧ (5 : BitVec 4).toNat ≤ 5) ∧ (8 : BitVec 4).toNat ≤ 8 ∧
    ((0x36 : CmdWord) ≤ 0x36 ∧ (0x36 : CmdWord) ≤ 0x3F) ∧ ((0x01 : CmdWord) ≤ 0x0F ∧ (0x0F : CmdWord) ≤ 0x0F) ∧
    ((0x80 : CmdWord) ≤ 0x80) ∧
    (State.reset.fault = false ∧ decodeRequest { cmd := 0x80, din := 0 } = .error .illegalCmd) :=
  ⟨by decide, by decide, by decide, by decide, by decide, rfl, rfl⟩

theorem witness_DecodeOfEncode : (Instr.eblk 5 7).wellFormed = true ∧ (Instr.dblk 8 7).wellFormed = true := by decide

theorem witness_DecodedCommandIsSpelledOnce :
    decodeRequest { cmd := 0x31, din := 7 } = .ok (.eblk 1 7) ∧
    Instr.eblk 1 7 ≠ .stat ∧ Instr.eblk 1 7 ≠ .senc ∧ Instr.eblk 1 7 ≠ .sdec ∧ Instr.eblk 1 7 ≠ .fin :=
  ⟨rfl, by decide, by decide, by decide, by decide⟩

theorem witness_StepRunsDecodedCommand :
    (State.reset.withFetchWord 8 0x10).host = .command { cmd := 0x10, din := 0 } :: [] ∧
    decodeRequest { cmd := 0x10, din := 0 } = .ok .senc ∧
    (State.reset.withFetchWord 8 0xFF).host = .command { cmd := 0xFF, din := 0 } :: [] ∧
    decodeRequest { cmd := 0xFF, din := 0 } = .error .illegalCmd ∧
    ({ unitFaulted with host := [.rst none] } : State).host = .rst none :: [] ∧ State.reset.host = [] :=
  ⟨by decide, rfl, by decide, rfl, rfl, rfl⟩

theorem witness_RstLeadsToResetAndAloneClearsFault :
    ∃ s t : State, s.host = .rst none :: [] ∧ step s = .next t ∧ s.fault = true ∧ t.fault = false :=
  ⟨{ unitFaulted with host := [.rst none] }, _, rfl, rfl, rfl, rfl⟩

theorem witness_OnlyFiveCommandsCompleteFromReset :
    (∃ n, Instr.lene 3 = .lene n) ∧ (Instr.dblk 8 0).wellFormed = true ∧ (∃ c d, Instr.dblk 8 0 = .dblk c d) :=
  ⟨⟨3, rfl⟩, by decide, 8, 0, rfl⟩

theorem witness_EveryCommandWritesItsResponse : 15 < 16 ∧ State.reset.host = [] ∧ step State.reset = .next State.reset :=
  ⟨by decide, rfl, rfl⟩

/-- SENC changes MODE, a group POS, an invalid symbol ERR, and a violation FAULT. -/
theorem witness_RegistersHaveOnlyTheirWriters :
    (∃ t, exec .senc State.reset = .next t ∧ t.mode ≠ State.reset.mode) ∧
    (∃ t, exec (.eblk 5 0) (encAt 0 false) = .next t ∧ (t.pos, t.final) ≠ ((encAt 0 false).pos, (encAt 0 false).final)) ∧
    (∃ t, exec (.dblk 1 0) (decAt 0 false) = .next t ∧
      (t.err, t.epos, t.ebyte) ≠ ((decAt 0 false).err, (decAt 0 false).epos, (decAt 0 false).ebyte)) ∧
    (∃ t, exec .fin State.reset = .next t ∧ (t.fault, t.fcause) ≠ (State.reset.fault, State.reset.fcause)) :=
  ⟨⟨_, rfl, by decide⟩, ⟨_, rfl, by decide⟩, ⟨_, rfl, by decide⟩, ⟨_, rfl, by decide⟩⟩

theorem witness_RomsAreInverse : inv 0x7A = some 31 := by decide

theorem witness_LengthIdentities : 8 % 8 = 0 ∧ encodedLen 5 ≤ 8 := by decide

theorem witness_LengthResultsAreExact : State.reset.fault = false := rfl

theorem witness_GroupCountsSumToLengths : (1 ≤ 4 ∧ 4 ≤ 4) ∧ (1 ≤ 7 ∧ 7 ≤ 7) := by decide

theorem witness_LeneGivesEncodedLength :
    (1 : BitVec 4) ≠ 0 ∧ decFailed.fault = false ∧ unitFaulted.fault = true ∧ (2 ^ 64 - 1) % 5 = 0 := by decide

theorem witness_LenbGivesBufferLength :
    (15 : BitVec 4) ≠ 0 ∧ decFailed.fault = false ∧ unitFaulted.fault = true ∧ 1 ≤ 5 ∧ 5 ≤ 5 := by decide

theorem witness_EncoderBlockContents : ∃ (b : Nat → Nat) (G : Nat), 1 ≤ 4 ∧ 4 ≤ 5 ∧
    (∀ j, b j = if j < 4 then (0x01020304FF000000 : Word).toNat / 256 ^ (7 - j) % 256 else 0) ∧
    G = b 0 * 256 ^ 4 + b 1 * 256 ^ 3 + b 2 * 256 ^ 2 + b 3 * 256 + b 4 :=
  ⟨_, _, by decide, by decide, fun _ => rfl, rfl⟩

theorem witness_BitExtractionTable : ∃ (G : BitVec 40) (W : Word),
    G = (0x84 : Byte) ++ (0x21 : Byte) ++ (0x08 : Byte) ++ (0x42 : Byte) ++ (0x10 : Byte) ∧ W = leftJustified G :=
  ⟨_, _, rfl, rfl⟩

theorem witness_PaddingSymbolsAreZero :
    (1 ≤ 4 ∧ 4 < 5) ∧ kEnc 4 ≤ (7 : Fin 8).val ∧ (6 : Fin 8).val + 1 = kEnc 4 := by decide

theorem witness_EncoderOutputIsInTheAlphabet :
    ∃ t, exec (.eblk 5 0) (encAt 0 false) = .next t ∧ statusCode t.rstat = codeBits .ok := ⟨_, rfl, by decide⟩

theorem witness_IgnoredDinBitsChangeNothing :
    (opcField 0x61 ≠ 3 ∧ opcField 0x61 ≠ 4 ∧ (0x61 : CmdWord) ≠ 0x60 ∧ (0x61 : CmdWord) ≠ 0x70) ∧
    opcField 0x41 = 4 ∧
    (∀ j : Fin 8, j.val < (cntField 0x41).toNat → lane 0x7A00000000000000 j = lane 0x7AFFFFFFFFFFFFFF j) := by decide

theorem witness_GroupsCarryNothing : ∃ t t',
    exec (.dblk 1 0x7A00000000000000) (decAt 0 false) = .next t ∧
    exec (.dblk 1 0x7A00000000000000) (decAt 8 false) = .next t' ∧
    statusCode t.rstat = codeBits .ok ∧ statusCode t'.rstat = codeBits .ok := ⟨_, _, rfl, rfl, by decide, by decide⟩

theorem witness_SencOpensAnEncodeStream :
    (1 : BitVec 4) ≠ 0 ∧ decFailed.fault = false ∧ unitFaulted.fault = true := by decide

/-- Each clause of the statement on EBLK, at a boundary of its range. -/
theorem witness_EblkEncodesOneGroup :
    unitFaulted.fault = true ∧
    ((encAt 0 false).fault = false ∧ 5 < (6 : BitVec 4).toNat) ∧
    ((encAt 5 true).fault = false ∧ (5 : BitVec 4).toNat ≤ 5 ∧ (encAt 5 true).final = true) ∧
    ((encAt 0xFFFFFFFFFFFFFFFD false).mode = .enc ∧ (encAt 0xFFFFFFFFFFFFFFFD false).final = false ∧
      (encAt 0xFFFFFFFFFFFFFFFD false).pos.toNat + (3 : BitVec 4).toNat > 2 ^ 64 - 1 ∧
      (encAt 0xFFFFFFFFFFFFFFFD false).pos.toNat + (2 : BitVec 4).toNat ≤ 2 ^ 64 - 1) ∧
    (∀ j : Fin 8, j.val < 1 → lane 0xFF00000000000000 j = lane 0xFFFFFFFFFFFFFFFF j) := by decide

theorem witness_LeastInvalidLaneIsReported :
    (1 ≤ 8 ∧ 8 ≤ 8) ∧ decBlock 0x3031323334353641 8 = .err 7 0x41 ∧ decBlock 0x7A7A7A7A7A7A7A7A 8 =
      .ok 0xFFFFFFFFFF000000 5 := by decide

theorem witness_ByteAssemblyIsTheSlicing : ∃ (x : Fin 8 → Idx) (G : BitVec 40),
    G = x 0 ++ x 1 ++ x 2 ++ x 3 ++ x 4 ++ x 5 ++ x 6 ++ x 7 ∧ (4 : Fin 8).val < 5 := ⟨fun _ => 31, _, rfl, by decide⟩

theorem witness_LaneMaskKeepsTheTruncation :
    ∃ x : Fin 8 → Idx, 1 ≤ 3 ∧ 3 ≤ 8 ∧ (∀ j : Fin 8, j.val < 3 → inv (lane 0x7A7A7A0000000000 j) ≠ none) ∧
      (∀ j : Fin 8, j.val < 3 → inv (lane 0x7A7A7A0000000000 j) = some (x j)) ∧ (∀ j : Fin 8, 3 ≤ j.val → x j = 0) :=
  ⟨fun j => if j.val < 3 then 31 else 0, by decide⟩

theorem witness_GroupRoundTrip : 1 ≤ 1 ∧ 1 ≤ 5 := by decide

theorem witness_FillerIsUnobservable : ∃ x y : Fin 8 → Idx,
    1 ≤ 7 ∧ 7 ≤ 7 ∧ (∀ j : Fin 8, j.val < 7 → x j = y j) ∧ (3 : Fin 8).val < kDec 7 ∧ x 7 ≠ y 7 :=
  ⟨fun _ => 0, fun j => if j.val < 7 then 0 else 31, by decide⟩

theorem witness_DecodingIsStrictButNotCanonical :
    ((0x41 : Byte) ≤ 0x41 ∧ (0x41 : Byte) ≤ 0x5A) ∧ ((0x80 : Byte) ≤ 0x80) ∧
    (1 ≤ 1 ∧ 1 ≤ 8 ∧ ∀ j : Fin 8, j.val < 1 → ∃ v : Idx, lane 0x7A00000000000000 j = alpha v) :=
  ⟨by decide, by decide, by decide, by decide, by decide⟩

theorem witness_SdecOpensADecodeStream :
    (1 : BitVec 4) ≠ 0 ∧ (encAt 5 true).fault = false ∧ unitFaulted.fault = true := by decide

/-- Each clause of the statement on DBLK, at a boundary of its range. -/
theorem witness_DblkDecodesOneGroup :
    unitFaulted.fault = true ∧
    ((decAt 0 false).fault = false ∧ 8 < (9 : BitVec 4).toNat) ∧
    ((decAt 3 true).fault = false ∧ (8 : BitVec 4).toNat ≤ 8 ∧ (decAt 3 true).final = true) ∧
    (decFailed.fault = false ∧ decFailed.mode = .dec ∧ decFailed.final = false ∧ decFailed.err = true) ∧
    ((decAt 0xFFFFFFFFFFFFFFF8 false).mode = .dec ∧ (decAt 0xFFFFFFFFFFFFFFF8 false).final = false ∧
      (decAt 0xFFFFFFFFFFFFFFF8 false).err = false ∧
      (decAt 0xFFFFFFFFFFFFFFF8 false).pos.toNat + (8 : BitVec 4).toNat > 2 ^ 64 - 1 ∧
      (decAt 0xFFFFFFFFFFFFFFF8 false).pos.toNat + (7 : BitVec 4).toNat ≤ 2 ^ 64 - 1) ∧
    decBlock 0x49000000000000FF (7 : BitVec 4).toNat = .err 0 0x49 ∧
    decBlock 0x7A7A7A7A7A7A7A00 (7 : BitVec 4).toNat = .ok 0xFFFFFFFF00000000 4 ∧
    (∀ j : Fin 8, j.val < 2 → lane 0x7A7A000000000000 j = lane 0x7A7AFFFFFFFFFFFF j) := by decide

theorem witness_FinReturnsTheStreamResult :
    (1 : BitVec 4) ≠ 0 ∧ unitFaulted.fault = true ∧ (State.reset.fault = false ∧ State.reset.mode = .idle) ∧
    ((encAt 11 true).fault = false ∧ (encAt 11 true).mode = .enc) ∧
    (decFailed.fault = false ∧ decFailed.mode = .dec ∧ decFailed.err = true) ∧
    ((decAt 18 true).fault = false ∧ (decAt 18 true).mode = .dec ∧ (decAt 18 true).err = false) := by decide

theorem witness_StatReadsThePosition :
    (1 : BitVec 4) ≠ 0 ∧ decFailed.fault = false ∧ FaultInv decFailed ∧ unitFaulted.fault = true ∧
    StreamInv State.reset ∧ State.reset.mode = .idle :=
  ⟨by decide, rfl, rfl, rfl, by constructor <;> decide, rfl⟩

theorem witness_StreamStateMachine :
    (encAt 0 false).fault = false ∧ (Instr.eblk 5 0).wellFormed = true ∧
    (encAt 0 false).pos.toNat + groupCount (.eblk 5 0) ≤ 2 ^ 64 - 1 := by decide

theorem witness_FaultActionIsPrecise :
    checkedCode { cmd := 0x80, din := 0 } State.reset = .violation .illegalCmd ∧
    checkedCode { cmd := 0x40, din := 0 } State.reset = .violation .badCount ∧
    checkedCode { cmd := 0x50, din := 0 } State.reset = .violation .seqErr ∧
    checkedCode { cmd := 0x48, din := 0 } (decAt 0xFFFFFFFFFFFFFFF8 false) = .violation .posOvf := by decide

theorem witness_FaultedUnitRefusesEveryCommand : ∃ t u,
    unitFaulted.fault = true ∧ performAction (.command { cmd := 0x10, din := 0 }) unitFaulted = .next t ∧
    performAction (.rst none) unitFaulted = .next u := ⟨_, _, rfl, rfl, rfl⟩

theorem witness_ChecksApplyInOrder :
    decodeRequest { cmd := 0x42, din := 0xC3AB000000000000 } = .ok (.dblk 2 0xC3AB000000000000) ∧
    checkedCode { cmd := 0x42, din := 0xC3AB000000000000 } (decAt 8 false) = .invalidInput ∧
    checkedCode { cmd := 0x42, din := 0xC3AB000000000000 } decFailed = .invalidInput ∧
    (decAt 8 false).err = false ∧ decFailed.err = true := ⟨rfl, by decide, by decide, rfl, rfl⟩

theorem witness_ResultCodesAndRecords :
    checkedCode { cmd := 0x00, din := 0 } State.reset = .ok ∧
    checkedCode { cmd := 0x50, din := 0 } decFailed = .invalidInput ∧
    checkedCode { cmd := 0x80, din := 0 } State.reset = .violation .illegalCmd ∧
    checkedCode { cmd := 0x49, din := 0 } State.reset = .violation .badCount ∧
    checkedCode { cmd := 0x50, din := 0 } State.reset = .violation .seqErr ∧
    checkedCode { cmd := 0x33, din := 0 } (encAt 0xFFFFFFFFFFFFFFFD false) = .violation .posOvf ∧
    checkedCode { cmd := 0x10, din := 0 } unitFaulted = .faulted := by decide

/-- The clauses of ResultCodesAndRecords by command: each completes OK somewhere, and a DBLK meets a first invalid
symbol in its last lane. -/
theorem witness_ResultCodesAndRecords_commands :
    checkedCode { cmd := 0x10, din := 0 } decFailed = .ok ∧ checkedCode { cmd := 0x20, din := 0 } decFailed = .ok ∧
    checkedCode { cmd := 0x35, din := 0 } (encAt 0xFFFFFFFFFFFFFFFA false) = .ok ∧
    checkedCode { cmd := 0x48, din := 0x3030303030303030 } (decAt 0 false) = .ok ∧
    checkedCode { cmd := 0x50, din := 0 } (encAt 5 false) = .ok ∧
    checkedCode { cmd := 0x50, din := 0 } (decAt 8 false) = .ok ∧
    checkedCode { cmd := 0x60, din := 11 } State.reset = .ok ∧
    checkedCode { cmd := 0x70, din := 6 } State.reset = .ok ∧
    checkedCode { cmd := 0x48, din := 0x3030303030303069 } (decAt 0 false) = .invalidInput ∧
    (decAt 0 false).err = false := by decide

theorem witness_InvalidInputIsNoFault :
    (∃ t, runRequest { cmd := 0x41, din := 0 } (decAt 0 false) = .next t ∧ statusCode t.rstat = codeBits .invalidInput) ∧
    (∃ t, runRequest { cmd := 0x48, din := 0 } decFailed = .next t) ∧ decFailed.mode = .dec ∧ decFailed.err = true ∧
    decodeRequest { cmd := 0x48, din := 0 } = .ok (.dblk 8 0) ∧ decFailed.fault = false :=
  ⟨⟨_, rfl, by decide⟩, ⟨_, rfl⟩, rfl, rfl, rfl, rfl⟩

/-- The four invariants hold of a failed decode stream whose host goes on, and that state steps. -/
theorem witness_step_invariants : ∃ s t : State,
    StreamInv s ∧ FaultInv s ∧ GroupInv s ∧ StatusInv s ∧ step s = .next t ∧ s.err = true :=
  ⟨{ decFailed with rstat := 0x0012C301, rdata := 8, host := [.command { cmd := 0x50, din := 0 }] }, _,
    by constructor <;> decide, rfl, by constructor <;> decide, by constructor <;> decide, rfl, rfl⟩

theorem witness_PositionNeverWraps :
    (∃ t, exec (.eblk 2 0) (encAt 0xFFFFFFFFFFFFFFFD false) = .next t) ∧
    Instr.eblk 2 0 ≠ .senc ∧ Instr.eblk 2 0 ≠ .sdec ∧ Instr.eblk 2 0 ≠ .fin :=
  ⟨⟨_, rfl⟩, by decide, by decide, by decide⟩

theorem witness_NewStreamForgetsTheOld :
    decFailed.fault = false ∧ (encAt 5 true).fault = false ∧ FaultInv decFailed ∧ FaultInv (encAt 5 true) ∧
    decFailed.host = (encAt 5 true).host := ⟨rfl, rfl, rfl, rfl, rfl⟩

theorem witness_QueriesAreIdempotent : ∃ n, Instr.lenb 3 = .lenb n := ⟨3, rfl⟩

theorem witness_IssuedCommandsAreTheRun :
    ∃ rs t, issueAll [{ cmd := 0x10, din := 0 }, { cmd := 0x50, din := 0 }] State.reset = some (rs, t) := ⟨_, _, rfl⟩

theorem witness_EncodeStreamIsTheCanonicalEncoding :
    decFailed.fault = false ∧ [(0x66 : Byte), 0x6F].length ≤ 2 ^ 64 - 1 := by decide

theorem witness_DecodeStreamHasOneResult :
    (encAt 5 true).fault = false ∧ [(0x7A : Byte), 0x5A].length ≤ 2 ^ 64 - 1 ∧
    firstInvalidSymbol [0x7A, 0x5A] = some 1 ∧ firstInvalidSymbol [0x7A] = none := by decide

theorem witness_StreamRoundTrip :
    (encAt 5 true).fault = false ∧ bufferLen [(0x66 : Byte), 0x6F].length ≤ 2 ^ 64 - 1 := by decide

end Sys2Proof.Tests
end

/-! ## The state, the responses and the ROM tables: the statements on 10_state.md

The first part says once what a turn of the host, a command and a response can do, in the order of the definitions they
speak of. The second part carries an invariant over a step, and the last settles the statements. -/

namespace Sys2Proof.Machine

/-! ### The ROM tables -/

/-- INV finds every symbol of ALPHA again (rule R33). -/
@[simp] theorem inv_alpha : ∀ v : Idx, inv (alpha v) = some v := by decide

/-- Every entry `some` of INV points at its own symbol in ALPHA, read off the 256 entries (rule R33). -/
theorem alpha_of_mem_inv : ∀ c : Byte, ∀ v ∈ inv c, alpha v = c := by decide

theorem inv_eq_some_iff (c : Byte) (v : Idx) : inv c = some v ↔ alpha v = c :=
  ⟨alpha_of_mem_inv c v, fun h => h ▸ inv_alpha v⟩

/-! ### Turns of the host -/

theorem step_of_idle {s : State} (h : s.host = []) : step s = .next s := by
  rw [step, takeTurn, h]

theorem step_of_command {s : State} {q : Request} {rest : List HostAction} (h : s.host = .command q :: rest) :
    step s = runRequest q { s with host := rest } := by
  rw [step, takeTurn, h]
  rfl

theorem step_of_rst {s : State} {o : Option Request} {rest : List HostAction} (h : s.host = .rst o :: rest) :
    step s = .next { State.reset with host := rest } := by
  rw [step, takeTurn, h]
  rfl

theorem runRequest_of_ok {q : Request} {i : Instr} (h : decodeRequest q = .ok i) (s : State) :
    runRequest q s = exec i s := by
  rw [runRequest, h]

theorem runRequest_of_error {q : Request} {c : FaultCause} (h : decodeRequest q = .error c) (s : State) :
    runRequest q s = rejectWord c s := by
  rw [runRequest, h]

/-! ### Every command completes, in a faulted unit or by one of the effects -/

theorem unlessFaulted_next (s : State) {r : Result} (h : ∃ t, r = .next t) : ∃ t, unlessFaulted s r = .next t := by
  unfold unlessFaulted
  split
  · exact ⟨_, rfl⟩
  · exact h

/-- Every command, of every operand, answers a next state. -/
theorem exec_next (i : Instr) (s : State) : ∃ t, exec i s = .next t := by
  cases i with
  | stat | senc | sdec | lene | lenb => exact unlessFaulted_next s ⟨_, rfl⟩
  | eblk | dblk => exact unlessFaulted_next s (by split_ifs <;> exact ⟨_, rfl⟩)
  | fin => exact unlessFaulted_next s (by split <;> exact ⟨_, rfl⟩)

/-- The inversion lemma of `exec` for every unit, faulted or not. -/
theorem exec_cases {i : Instr} {s t : State} (h : exec i s = .next t) : t = respondFaulted s ∨ Effect s i t := by
  cases hf : s.fault with
  | false => exact .inr (exec_effect hf h)
  | true =>
    rw [exec_of_fault hf] at h
    cases h
    exact .inl rfl

/-! ### What an effect writes (rule R36) -/

/-- A group that passes the check of POS does not carry POS past its 64 bits. -/
theorem toNat_add_of_le_posMax {p : Word} {r : Nat} (h : p.toNat + r ≤ Config.posMax) :
    (p + BitVec.ofNat 64 r).toNat = p.toNat + r := by
  unfold Config.posMax at h
  rw [BitVec.toNat_add, BitVec.toNat_ofNat]
  omega

namespace Effect

variable {s t : State} {i : Instr}

theorem mode_writers (h : Effect s i t) (hne : t.mode ≠ s.mode) : i = .senc ∨ i = .sdec ∨ i = .fin := by
  cases h with
  | openEnc => exact .inl rfl
  | openDec => exact .inr (.inl rfl)
  | close => exact .inr (.inr rfl)
  | violation | report | encode | stored | reject | deliver => exact absurd rfl hne

theorem pos_final_writers (h : Effect s i t) (hne : (t.pos, t.final) ≠ (s.pos, s.final)) :
    i = .senc ∨ i = .sdec ∨ i = .fin ∨ (∃ c d, i = .eblk c d) ∨
      (∃ c d, i = .dblk c d ∧ statusCode t.rstat = codeBits .ok) := by
  cases h with
  | openEnc => exact .inl rfl
  | openDec => exact .inr (.inl rfl)
  | close => exact .inr (.inr (.inl rfl))
  | encode cnt din => exact .inr (.inr (.inr (.inl ⟨cnt, din, rfl⟩)))
  | deliver cnt din => exact .inr (.inr (.inr (.inr ⟨cnt, din, rfl, statusCode_packStatus ..⟩)))
  | violation | report | stored | reject => exact absurd rfl hne

theorem error_writers (h : Effect s i t) (hne : (t.err, t.epos, t.ebyte) ≠ (s.err, s.epos, s.ebyte)) :
    i = .senc ∨ i = .sdec ∨ i = .fin ∨
      (∃ c d, i = .dblk c d ∧ s.err = false ∧ statusCode t.rstat = codeBits .invalidInput) := by
  cases h with
  | openEnc => exact .inl rfl
  | openDec => exact .inr (.inl rfl)
  | close => exact .inr (.inr (.inl rfl))
  | reject cnt din e hc hm hf he => exact .inr (.inr (.inr ⟨cnt, din, rfl, he, statusCode_packStatus ..⟩))
  | violation | report | encode | stored | deliver => exact absurd rfl hne

/-- FAULT and FCAUSE are left alone, or the effect is the fault action. -/
theorem fault_cases (h : Effect s i t) :
    (t.fault = s.fault ∧ t.fcause = s.fcause) ∨ ∃ c, t = raiseFault c s := by
  cases h with
  | violation _ c => exact .inr ⟨c, rfl⟩
  | report | openEnc | openDec | close | encode | stored | reject | deliver => exact .inl ⟨rfl, rfl⟩

theorem fault_writers (h : Effect s i t) (hne : (t.fault, t.fcause) ≠ (s.fault, s.fcause)) :
    ∃ c, Answered { s with fault := true, fcause := some c } t (.violation c) 0 0 false 0 := by
  obtain ⟨hf, hc⟩ | ⟨c, rfl⟩ := h.fault_cases
  · exact absurd (Prod.ext hf hc) hne
  · exact ⟨c, raiseFault_answered c s⟩

theorem host_eq (h : Effect s i t) : t.host = s.host := by
  cases h <;> rfl

/-- Outside SENC, SDEC and FIN, POS stays or takes the whole count, and then the command is OK. -/
theorem pos_stays_or_takes_count (h : Effect s i t) (hsenc : i ≠ .senc) (hsdec : i ≠ .sdec) (hfin : i ≠ .fin) :
    t.pos.toNat = s.pos.toNat ∨
      (t.pos.toNat = s.pos.toNat + groupCount i ∧ statusCode t.rstat = codeBits .ok) := by
  cases h with
  | openEnc => exact absurd rfl hsenc
  | openDec => exact absurd rfl hsdec
  | close => exact absurd rfl hfin
  | encode _ _ _ _ _ ho => exact .inr ⟨toNat_add_of_le_posMax ho, statusCode_packStatus ..⟩
  | deliver _ _ _ _ _ _ ho => exact .inr ⟨toNat_add_of_le_posMax ho, statusCode_packStatus ..⟩
  | violation | report | stored | reject => exact .inl rfl

end Effect

/-! ### Every command is one response, with KCNT in its range -/

/-- `t` is what one `respond` makes of some state, with a KCNT of at most 8. -/
def IsResponse (t : State) : Prop :=
  ∃ (base : State) (code : Code) (kcnt : Nat) (ebyte : Byte) (len64 : Bool) (data : Word),
    kcnt ≤ 8 ∧ t = respond code kcnt ebyte len64 data base

theorem partialSymbols_le (n : Nat) : partialSymbols n ≤ 7 := by
  match n with
  | 0 | 1 | 2 | 3 | 4 => decide
  | _ + 5 => exact Nat.zero_le 7

theorem kEnc_le (r : Nat) : kEnc r ≤ 8 := by
  unfold kEnc
  split
  · exact Nat.le_refl 8
  · exact (partialSymbols_le r).trans (by decide)

theorem kDec_le {r : Nat} (h : r ≤ 8) : kDec r ≤ 5 := by
  unfold kDec
  split <;> omega

theorem le_of_legalDecCount {cnt : BitVec 4} (h : legalDecCount cnt = true) : cnt.toNat ≤ 8 :=
  (of_decide_eq_true h).2

theorem Effect.isResponse {s t : State} {i : Instr} (h : Effect s i t) : IsResponse t := by
  cases h with
  | encode cnt => exact ⟨_, _, _, _, _, _, kEnc_le cnt.toNat, rfl⟩
  | deliver _ _ hc => exact ⟨_, _, _, _, _, _, (kDec_le (le_of_legalDecCount hc)).trans (by decide), rfl⟩
  | violation | report | openEnc | openDec | close | stored | reject => exact ⟨_, _, 0, _, _, _, by decide, rfl⟩

theorem isResponse_respondFaulted (s : State) : IsResponse (respondFaulted s) :=
  ⟨_, _, 0, _, _, _, by decide, rfl⟩

theorem isResponse_raiseFault (c : FaultCause) (s : State) : IsResponse (raiseFault c s) :=
  (Effect.violation .stat c).isResponse

/-- Rule R27: every presented word, of a command or not, ends in one response. -/
theorem runRequest_isResponse (q : Request) (s : State) : ∃ t, runRequest q s = .next t ∧ IsResponse t := by
  cases hd : decodeRequest q with
  | ok i =>
    obtain ⟨t, ht⟩ := exec_next i s
    refine ⟨t, (runRequest_of_ok hd s).trans ht, ?_⟩
    obtain rfl | he := exec_cases ht
    · exact isResponse_respondFaulted s
    · exact he.isResponse
  | error c =>
    rw [runRequest_of_error hd, rejectWord, unlessFaulted]
    split
    · exact ⟨_, rfl, isResponse_respondFaulted s⟩
    · exact ⟨_, rfl, isResponse_raiseFault c s⟩

/-! ### RSTAT as a number, and as a copy of the flags (rule R28) -/

theorem toNat_append_eq_add {n m : Nat} (x : BitVec n) (y : BitVec m) :
    (x ++ y).toNat = 2 ^ m * x.toNat + y.toNat := by
  rw [BitVec.toNat_append, ← Nat.shiftLeft_add_eq_or_of_lt y.isLt, Nat.shiftLeft_eq, Nat.mul_comm]

/-- The value of RSTAT, field by field at its bit position. -/
theorem packStatus_toNat (code : Code) (kcnt : BitVec 4) (ebyte : Byte) (len64 : Bool) (s : State) :
    (packStatus code kcnt ebyte len64 s).toNat =
      (codeBits code).toNat + 2 ^ 4 * kcnt.toNat + 2 ^ 8 * ebyte.toNat + 2 ^ 16 * len64.toNat
        + 2 ^ 17 * s.err.toNat + 2 ^ 18 * s.fault.toNat + 2 ^ 19 * (modeBits s.mode).toNat + 2 ^ 21 * s.final.toNat
        + 2 ^ 22 * (fcauseBits s.fcause).toNat := by
  unfold packStatus
  rw [BitVec.toNat_setWidth_of_le (by decide)]
  simp only [toNat_append_eq_add, BitVec.toNat_ofBool]
  omega

theorem codeBits_le (code : Code) : (codeBits code).toNat ≤ 6 := by
  rcases code with _ | _ | c | _
  case violation => cases c <;> decide
  all_goals decide

theorem IsResponse.statusInv {t : State} (h : IsResponse t) : StatusInv t := by
  obtain ⟨base, code, kcnt, ebyte, len64, data, hk, rfl⟩ := h
  have ha := respond_answered code ebyte len64 data base (show kcnt < 16 by omega)
  exact {
    err := ha.err
    fault := ha.fault
    mode := ha.mode
    final := ha.final
    fcause := ha.fcause
    reserved := ha.reserved
    code := ha.code ▸ codeBits_le code
    kcnt := ha.kcnt.trans_le hk }

theorem StatusInv.setHost {s : State} (h : StatusInv s) (rest : List HostAction) : StatusInv (s.setHost rest) :=
  ⟨h.err, h.fault, h.mode, h.final, h.fcause, h.reserved, h.code, h.kcnt⟩

theorem statusInv_reset : StatusInv State.reset := by constructor <;> decide

/-! ### The stream invariant under each register write (rule R34) -/

/-- The stream invariant reads MODE, POS, FINAL, ERR, EPOS and EBYTE only. -/
theorem StreamInv.of_eq {s t : State} (h : StreamInv s) (hmode : t.mode = s.mode) (hpos : t.pos = s.pos)
    (hfinal : t.final = s.final) (herr : t.err = s.err) (hepos : t.epos = s.epos) (hebyte : t.ebyte = s.ebyte) :
    StreamInv t := by
  constructor <;> simp only [hmode, hpos, hfinal, herr, hepos, hebyte]
  exacts [h.idle_clear, h.err_in_dec, h.err_not_final, h.err_near, h.err_byte, h.clear_without_err]

theorem StreamInv.respond {s : State} (h : StreamInv s) (code : Code) (kcnt : Nat) (ebyte : Byte) (len64 : Bool)
    (data : Word) : StreamInv (respond code kcnt ebyte len64 data s) :=
  h.of_eq rfl rfl rfl rfl rfl rfl

theorem StreamInv.setHost {s : State} (h : StreamInv s) (rest : List HostAction) : StreamInv (s.setHost rest) :=
  h.of_eq rfl rfl rfl rfl rfl rfl

theorem StreamInv.setFault {s : State} (h : StreamInv s) (c : FaultCause) : StreamInv (s.setFault c) :=
  h.of_eq rfl rfl rfl rfl rfl rfl

/-- A stream opened or closed holds nothing of another one. -/
theorem streamInv_setStream (s : State) (m : Mode) : StreamInv (s.setStream m) := by
  constructor <;> simp

theorem streamInv_reset : StreamInv State.reset := streamInv_setStream State.reset .idle

/-- Only a stream that is open and has no error takes a group. -/
theorem StreamInv.acceptGroup {s : State} (h : StreamInv s) (hm : s.mode ≠ .idle) (he : s.err = false) (r : Nat)
    (isFinal : Bool) : StreamInv (s.acceptGroup r isFinal) where
  idle_clear hidle := absurd hidle hm
  err_in_dec := h.err_in_dec
  err_not_final herr := absurd (he.symm.trans herr) (by decide)
  err_near herr := absurd (he.symm.trans herr) (by decide)
  err_byte := h.err_byte
  clear_without_err := h.clear_without_err

theorem streamInv_setError {s : State} {p : Word} {c : Byte} (hm : s.mode = .dec) (hf : s.final = false)
    (hp : s.pos.toNat ≤ p.toNat ∧ p.toNat ≤ s.pos.toNat + 7) (hc : inv c = none) : StreamInv (s.setError p c) where
  idle_clear hidle := absurd (hm.symm.trans hidle) (by decide)
  err_in_dec _ := hm
  err_not_final _ := hf
  err_near _ := hp
  err_byte _ := hc
  clear_without_err herr := absurd herr (by simp)

/-- The lane the scan finds lies below the count and holds no symbol of the alphabet (rule R122). -/
theorem lane_of_firstInvalid {din : Word} {r : Nat} {e : Fin 8} (h : firstInvalid din r = some e) :
    e.val < r ∧ inv (lane din e) = none := by
  have hnone : (laneIdx din r e).isNone = true :=
    List.find?_some (p := fun j => (laneIdx din r j).isNone) h
  unfold laneIdx at hnone
  split at hnone
  next hlt => exact ⟨hlt, Option.isNone_iff_eq_none.mp hnone⟩
  next => cases hnone

/-- Rule R131: the error lies in the group at POS, at most 7 past it, since the check of POS has been passed. -/
theorem streamInv_rejectGroup {s : State} {din : Word} {r : Nat} {e : Fin 8} (hm : s.mode = .dec)
    (hf : s.final = false) (ho : s.pos.toNat + r ≤ Config.posMax) (hi : firstInvalid din r = some e) :
    StreamInv (rejectGroup e (lane din e) s) := by
  obtain ⟨hlt, hinv⟩ := lane_of_firstInvalid hi
  have hp : (s.pos + BitVec.ofNat 64 e.val).toNat = s.pos.toNat + e.val := toNat_add_of_le_posMax (by omega)
  exact (streamInv_setError hm hf (by omega) hinv).respond ..

theorem Effect.keeps_streamInv {s t : State} {i : Instr} (h : Effect s i t) (hs : StreamInv s) : StreamInv t := by
  cases h with
  | violation _ c => exact (hs.setFault c).respond ..
  | report | stored => exact hs.respond ..
  | openEnc | openDec | close => exact (streamInv_setStream ..).respond ..
  | encode _ _ _ hm =>
    have he : s.err = false := Bool.eq_false_iff.mpr fun herr =>
      absurd (hm.symm.trans (hs.err_in_dec herr)) (by decide)
    exact (hs.acceptGroup (by simp [hm]) he ..).respond ..
  | reject _ _ _ _ hm hf _ ho hi => exact streamInv_rejectGroup hm hf ho hi
  | deliver _ _ _ hm _ he => exact (hs.acceptGroup (by simp [hm]) he ..).respond ..

/-! ### The fault and group invariants (rules R29 and R53) -/

theorem faultInv_reset : FaultInv State.reset := rfl

theorem groupInv_reset : GroupInv State.reset := by constructor <;> decide

theorem Effect.keeps_faultInv {s t : State} {i : Instr} (h : Effect s i t) (hs : FaultInv s) : FaultInv t := by
  obtain ⟨hf, hc⟩ | ⟨c, rfl⟩ := h.fault_cases
  · unfold FaultInv
    rw [hf, hc]
    exact hs
  · rfl

/-- Without a fault there is no cause either. -/
theorem FaultInv.fcause_eq_none {s : State} (h : FaultInv s) (hf : s.fault = false) : s.fcause = none := by
  simpa [hf] using h.symm

/-- A stream opened in a unit without a fault is the one opened after reset: every register is written or has its reset
value (rule R112). -/
theorem respond_setStream_of_no_fault {s : State} (hf : s.fault = false) (hi : FaultInv s) (m : Mode) (code : Code)
    (kcnt : Nat) (ebyte : Byte) (len64 : Bool) (data : Word) :
    respond code kcnt ebyte len64 data (s.setStream m) =
      respond code kcnt ebyte len64 data ((State.reset.setHost s.host).setStream m) := by
  have hc := hi.fcause_eq_none hf
  cases s
  cases hf
  cases hc
  rfl

/-! ### From the effects to a step -/

/-- What holds after reset, and is kept by the host's list, by the answer FAULTED and by every effect of a command, is
kept by every step. -/
theorem step_keeps {P : State → Prop} (reset : P State.reset) (setHost : ∀ s rest, P s → P (s.setHost rest))
    (faulted : ∀ s, P s → P (respondFaulted s)) (effect : ∀ s i t, Effect s i t → P s → P t) {s t : State} (hs : P s)
    (h : step s = .next t) : P t := by
  obtain ⟨-, rfl⟩ | ⟨_, rest, -, -, rfl⟩ | ⟨_, rest, c, -, -, -, rfl⟩ | ⟨_, rest, i, -, -, -, he⟩ | ⟨_, rest, -, rfl⟩ :=
    step_cases h
  · exact hs
  · exact faulted _ (setHost s rest hs)
  · exact effect _ .stat _ (.violation .stat c) (setHost s rest hs)
  · exact effect _ i t he (setHost s rest hs)
  · exact setHost _ rest reset

/-! ### The statements -/

/-- Settles O45: each register write of an effect keeps the invariant, and a rejected group's error lies at most 7 past
POS since the check of POS precedes the scan. -/
theorem stepKeepsStreamInv : Obligations.StepKeepsStreamInv := by
  intro s t hs h
  exact step_keeps streamInv_reset (fun _ rest hP => hP.setHost rest) (fun _ hP => hP.respond ..)
    (fun _ _ _ he hP => he.keeps_streamInv hP) hs h

/-- Settles O48: every effect is a response, and a response copies the flags of the state it leaves. -/
theorem stepKeepsStatusInv : Obligations.StepKeepsStatusInv := by
  intro s t hs h
  exact step_keeps statusInv_reset (fun _ rest hP => hP.setHost rest)
    (fun s _ => (isResponse_respondFaulted s).statusInv) (fun _ _ _ he _ => he.isResponse.statusInv) hs h

/-- Settles O9, from the layout of RSTAT and the lemma that every presented word ends in one response. -/
theorem everyCommandWritesItsResponse : Obligations.EveryCommandWritesItsResponse := by
  refine ⟨fun code kcnt ebyte len64 data s hk => ⟨_, rfl, rfl, ?_⟩, fun q s => ?_, fun s t hh h => ?_⟩
  · rw [respond_rstat, packStatus_toNat, BitVec.toNat_ofNat, Nat.mod_eq_of_lt hk]
    rfl
  · obtain ⟨_, ht, base, code, kcnt, ebyte, len64, data, hk, rfl⟩ := runRequest_isResponse q s
    exact ⟨base, code, kcnt, ebyte, len64, data, by omega, ht⟩
  · rw [step_of_idle hh] at h
    cases h
    exact ⟨rfl, rfl⟩

/-- Settles O10: a faulted unit writes no such register, and each effect writes those of its row. -/
theorem registersHaveOnlyTheirWriters : Obligations.RegistersHaveOnlyTheirWriters := by
  intro i s t h
  obtain rfl | he := exec_cases h
  · exact ⟨(absurd rfl ·), (absurd rfl ·), (absurd rfl ·), (absurd rfl ·), rfl⟩
  · exact ⟨he.mode_writers, he.pos_final_writers, he.error_writers, he.fault_writers, he.host_eq⟩

/-- Settles O46: an effect leaves FAULT and FCAUSE alone or sets both. -/
theorem stepKeepsFaultInv : Obligations.StepKeepsFaultInv := by
  intro s t hs h
  exact step_keeps faultInv_reset (fun _ _ hP => hP) (fun _ hP => hP) (fun _ _ _ he hP => he.keeps_faultInv hP) hs h

/-- Settles O51: a group is accepted only after the check of POS, so the 64-bit sum is the sum. -/
theorem positionNeverWraps : Obligations.PositionNeverWraps := by
  intro i s t h hsenc hsdec hfin
  obtain rfl | he := exec_cases h
  · exact .inl rfl
  · exact he.pos_stays_or_takes_count hsenc hsdec hfin

/-- Settles O52: from both states the stream is the one opened after reset under the same host. -/
theorem newStreamForgetsTheOld : Obligations.NewStreamForgetsTheOld := by
  intro i s s' hi hf hf' hinv hinv' hhost
  have hopen (m : Mode) : (.next (respond .ok 0 0 false 0 (s'.setStream m)) : Result) =
      .next (respond .ok 0 0 false 0 (s.setStream m)) := by
    rw [respond_setStream_of_no_fault hf hinv, respond_setStream_of_no_fault hf' hinv', hhost]
  obtain rfl | rfl := hi
  · exact ⟨_, unlessFaulted_of_no_fault hf _, (unlessFaulted_of_no_fault hf' _).trans (hopen .enc)⟩
  · exact ⟨_, unlessFaulted_of_no_fault hf _, (unlessFaulted_of_no_fault hf' _).trans (hopen .dec)⟩

/-- Settles O5, by the equation of `step` for each action of the host. -/
theorem stepRunsDecodedCommand : Obligations.StepRunsDecodedCommand :=
  ⟨fun _ _ _ _ hh hd => (step_of_command hh).trans (runRequest_of_ok hd _),
    fun _ _ _ _ hh hd => (step_of_command hh).trans (runRequest_of_error hd _),
    fun _ _ _ hh => step_of_command hh, fun _ _ _ hh => step_of_rst hh, fun _ hh => step_of_idle hh⟩

/-- Settles O11, entry by entry over the 32 indices. -/
theorem alphabetRomContents : Obligations.AlphabetRomContents := by
  unfold Obligations.AlphabetRomContents
  decide

/-- Settles O6: the registers by the definition of the reset state, the tables by their contents. -/
theorem resetValues : Obligations.ResetValues :=
  ⟨rfl, rfl, rfl, rfl, rfl, rfl, rfl, rfl, rfl, rfl, alphabetRomContents, inv_eq_some_iff⟩

/-- Settles O12, entry by entry over the 256 bytes. -/
theorem inverseRomContents : Obligations.InverseRomContents := by
  unfold Obligations.InverseRomContents
  decide

/-- Settles O13; the entries are counted in two halves of the byte range. -/
theorem romsAreInverse : Obligations.RomsAreInverse := by
  refine ⟨inv_alpha, alpha_of_mem_inv, ?_⟩
  rw [show 256 = 128 + 128 from rfl, List.range_add, List.countP_append, List.countP_map]
  decide

/-- Settles O49. -/
theorem resetMeetsTheInvariants : Obligations.ResetMeetsTheInvariants :=
  ⟨streamInv_reset, faultInv_reset, groupInv_reset, statusInv_reset⟩

end Sys2Proof.Machine

/-! ## Group alignment and the queries: the statements on 20_memory.md

The group invariant is carried over each effect and then over a step; the queries are settled by the fact that no
command reads the response registers. -/

namespace Sys2Proof.Machine

/-! ### The group invariant under each effect (rule R53) -/

/-- The group invariant reads MODE, POS and FINAL only. -/
theorem GroupInv.of_eq {s t : State} (h : GroupInv s) (hmode : t.mode = s.mode) (hpos : t.pos = s.pos)
    (hfinal : t.final = s.final) : GroupInv t := by
  constructor <;> simp only [hmode, hpos, hfinal]
  exacts [h.enc, h.dec]

/-- A stream opened or closed is at position 0 and has accepted no final group. -/
theorem groupInv_setStream (s : State) (m : Mode) : GroupInv (s.setStream m) := by
  constructor <;> simp

/-- From an aligned position `p`, a group of at most `k` units ends aligned exactly when it is full. -/
theorem decide_lt_eq_false_iff_add_mod_eq_zero {p r k : Nat} (hp : p % k = 0) (hr : 0 < r) (hrk : r ≤ k) :
    decide (r < k) = false ↔ (p + r) % k = 0 := by
  have hadd : (p + r) % k = r % k := by rw [Nat.add_mod, hp, Nat.zero_add, Nat.mod_mod]
  rw [hadd, decide_eq_false_iff_not]
  obtain hlt | rfl := Nat.lt_or_eq_of_le hrk
  · rw [Nat.mod_eq_of_lt hlt]
    omega
  · simp

/-- An accepted group of at most `k` units is not final exactly when it leaves POS aligned: the check of POS keeps the
64-bit sum exact. -/
theorem acceptGroup_aligned {s : State} {r k : Nat} (hp : s.pos.toNat % k = 0) (hr : 0 < r ∧ r ≤ k)
    (ho : s.pos.toNat + r ≤ Config.posMax) :
    decide (r < k) = false ↔ (s.acceptGroup r (decide (r < k))).pos.toNat % k = 0 := by
  rw [State.acceptGroup_pos, toNat_add_of_le_posMax ho]
  exact decide_lt_eq_false_iff_add_mod_eq_zero hp hr.1 hr.2

theorem GroupInv.encodeGroup {s : State} (h : GroupInv s) {cnt : BitVec 4} (hc : legalEncCount cnt = true)
    (hm : s.mode = .enc) (hf : s.final = false) (ho : s.pos.toNat + cnt.toNat ≤ Config.posMax) (din : Word) :
    GroupInv (encodeGroup cnt.toNat din s) where
  enc _ := acceptGroup_aligned ((h.enc hm).mp hf) (of_decide_eq_true hc) ho
  dec hdec := absurd (hm.symm.trans hdec) (by decide)

theorem GroupInv.deliverGroup {s : State} (h : GroupInv s) {cnt : BitVec 4} (hc : legalDecCount cnt = true)
    (hm : s.mode = .dec) (hf : s.final = false) (ho : s.pos.toNat + cnt.toNat ≤ Config.posMax) (out : Word) (k : Nat) :
    GroupInv (deliverGroup cnt.toNat out k s) where
  enc henc := absurd (hm.symm.trans henc) (by decide)
  dec _ := acceptGroup_aligned ((h.dec hm).mp hf) (of_decide_eq_true hc) ho

theorem Effect.keeps_groupInv {s t : State} {i : Instr} (h : Effect s i t) (hs : GroupInv s) : GroupInv t := by
  cases h with
  | violation | report | stored | reject => exact hs.of_eq rfl rfl rfl
  | openEnc | openDec | close => exact (groupInv_setStream s _).of_eq rfl rfl rfl
  | encode _ _ hc hm hf ho => exact hs.encodeGroup hc hm hf ho _
  | deliver _ _ hc hm hf _ ho => exact hs.deliverGroup hc hm hf ho _ _

/-! ### The response registers are written and never read (rules R27 and R55) -/

/-- What a command does is independent of the response that stands in RSTAT and RDATA. -/
theorem exec_setResponse (i : Instr) (s : State) (status : BitVec 32) (data : Word) :
    exec i (s.setResponse status data) = exec i s := by
  cases i <;> rfl

theorem unlessFaulted_respond (s : State) (code : Code) (kcnt : Nat) (ebyte : Byte) (len64 : Bool) (data : Word) :
    ∃ status d, unlessFaulted s (.next (respond code kcnt ebyte len64 data s)) = .next (s.setResponse status d) := by
  cases hf : s.fault with
  | true => exact ⟨_, _, unlessFaulted_of_fault hf _⟩
  | false => exact ⟨_, _, unlessFaulted_of_no_fault hf _⟩

/-- STAT, LENE and LENB write the response alone, in a faulted unit too. -/
theorem exec_query {i : Instr} (hi : i = .stat ∨ (∃ n, i = .lene n) ∨ ∃ n, i = .lenb n) (s : State) :
    ∃ status data, exec i s = .next (s.setResponse status data) := by
  obtain rfl | ⟨n, rfl⟩ | ⟨n, rfl⟩ := hi <;> exact unlessFaulted_respond s ..

/-! ### The statements -/

/-- Settles O47: an open stream without a final group is aligned, so the next group leaves it aligned exactly when it is
full; and the check of POS keeps the 64-bit sum exact. -/
theorem stepKeepsGroupInv : Obligations.StepKeepsGroupInv := by
  intro s t hs h
  exact step_keeps groupInv_reset (fun _ _ hP => hP.of_eq rfl rfl rfl) (fun _ hP => hP.of_eq rfl rfl rfl)
    (fun _ _ _ he hP => he.keeps_groupInv hP) hs h

/-- Settles O53: a query writes the response alone, and no command reads the response. -/
theorem queriesAreIdempotent : Obligations.QueriesAreIdempotent := by
  intro i s hi
  obtain ⟨status, data, h⟩ := exec_query hi s
  exact ⟨_, h, (exec_setResponse i s status data).trans h, rfl⟩

end Sys2Proof.Machine

/-! ## Decoding and encoding: the statements on 30_encoding.md

The decoder is inverted once: a word decodes to a command exactly when the encoder spells the command by that word and
the command carries the presented DIN. DIN never decides whether a word decodes, so the 256 command words are classed
at DIN = 0. The last part says which lanes of DIN a command reads. -/

namespace Sys2Proof

/-! ### The fields of a command word (rule R70) -/

@[simp] theorem opcField_cmdWord (opc cnt : BitVec 4) : opcField (cmdWord opc cnt) = opc := by
  unfold opcField cmdWord
  rw [Machine.extract_append_high _ _ 4 4 (by decide), Machine.extract_all]

@[simp] theorem cntField_cmdWord (opc cnt : BitVec 4) : cntField (cmdWord opc cnt) = cnt := by
  unfold cntField cmdWord
  rw [Machine.extract_append_low _ _ 0 4 (by decide), Machine.extract_all]

theorem cmdWord_opcField_cntField (cmd : CmdWord) : cmdWord (opcField cmd) (cntField cmd) = cmd := by
  unfold cmdWord opcField cntField
  exact (BitVec.extractLsb'_append_extractLsb'_eq_extractLsb' rfl).trans (Machine.extract_all cmd)

theorem cmdWord_eq_of_fields {cmd : CmdWord} {opc cnt : BitVec 4} (hopc : (opcField cmd).toNat = opc.toNat)
    (hcnt : cntField cmd = cnt) : cmdWord opc cnt = cmd := by
  rw [← BitVec.eq_of_toNat_eq hopc, ← hcnt, cmdWord_opcField_cntField]

/-- A group command's word is written with OR in rule R75's classes and as a concatenation in the encoder. -/
theorem or_setWidth_eq_cmdWord : ∀ cnt : BitVec 4,
    0x30 ||| cnt.setWidth 8 = cmdWord 3 cnt ∧ 0x40 ||| cnt.setWidth 8 = cmdWord 4 cnt := by decide

/-! ### The count checks (rules R72 and R77) -/

theorem withZeroCount_eq_ok {cnt : BitVec 4} {i j : Instr} (h : withZeroCount cnt i = .ok j) : cnt = 0 ∧ i = j := by
  unfold withZeroCount at h
  split at h
  next hcnt => exact ⟨hcnt, Except.ok.inj h⟩
  next => cases h

theorem withLegalCount_eq_ok {i j : Instr} (h : withLegalCount i = .ok j) : i.wellFormed = true ∧ i = j := by
  unfold withLegalCount at h
  split at h
  next hi => exact ⟨hi, Except.ok.inj h⟩
  next => cases h

@[simp] theorem withZeroCount_zero (i : Instr) : withZeroCount 0#4 i = .ok i := if_pos rfl

theorem withLegalCount_of_wellFormed {i : Instr} (h : i.wellFormed = true) : withLegalCount i = .ok i := if_pos h

/-! ### The operand of a command -/

/-- The command with its operand word replaced, if it carries one (rule R73). -/
def Instr.withDin (din : Word) : Instr → Instr
  | .eblk cnt _ => .eblk cnt din
  | .dblk cnt _ => .dblk cnt din
  | .lene _ => .lene din
  | .lenb _ => .lenb din
  | .stat => .stat
  | .senc => .senc
  | .sdec => .sdec
  | .fin => .fin

@[simp] theorem Instr.wellFormed_withDin (din : Word) (i : Instr) : (i.withDin din).wellFormed = i.wellFormed := by
  cases i <;> rfl

theorem map_withZeroCount (cnt : BitVec 4) (din : Word) (i : Instr) :
    (withZeroCount cnt i).map (Instr.withDin din) = withZeroCount cnt (i.withDin din) := by
  unfold withZeroCount
  split <;> rfl

theorem map_withLegalCount (din : Word) (i : Instr) :
    (withLegalCount i).map (Instr.withDin din) = withLegalCount (i.withDin din) := by
  unfold withLegalCount
  rw [Instr.wellFormed_withDin]
  split <;> rfl

/-! ### The decoder -/

/-- DIN is the operand of what a word spells and decides nothing else: not whether the word decodes, nor its fault. -/
theorem decodeCmd_map_withDin (cmd : CmdWord) (d e : Word) :
    (decodeCmd cmd d).map (Instr.withDin e) = decodeCmd cmd e := by
  unfold decodeCmd
  split
  case h_4 | h_5 => exact map_withLegalCount ..
  case h_9 => rfl
  case h_1 | h_2 | h_3 | h_6 | h_7 | h_8 => exact map_withZeroCount ..

theorem decodeCmd_encode {i : Instr} (h : i.wellFormed = true) : decodeCmd (encode i).cmd (encode i).din = .ok i := by
  cases i with
  | eblk | dblk => simpa [decodeCmd, encode] using withLegalCount_of_wellFormed h
  | stat | senc | sdec | fin | lene | lenb => simp [decodeCmd, encode]

/-- The inversion lemma of the decoder, with its converse (rules R70, R73 and R76). -/
theorem decodeCmd_eq_ok_iff {cmd : CmdWord} {din : Word} {i : Instr} :
    decodeCmd cmd din = .ok i ↔ i.wellFormed = true ∧ (encode i).cmd = cmd ∧ i.withDin din = i := by
  constructor
  · intro h
    unfold decodeCmd at h
    split at h
    case h_4 hopc | h_5 hopc =>
      obtain ⟨hwf, rfl⟩ := withLegalCount_eq_ok h
      exact ⟨hwf, cmdWord_eq_of_fields hopc rfl, rfl⟩
    case h_9 => cases h
    case h_1 hopc | h_2 hopc | h_3 hopc | h_6 hopc | h_7 hopc | h_8 hopc =>
      obtain ⟨hcnt, rfl⟩ := withZeroCount_eq_ok h
      exact ⟨rfl, cmdWord_eq_of_fields hopc hcnt, rfl⟩
  · rintro ⟨hwf, rfl, hdin⟩
    rw [← decodeCmd_map_withDin _ (encode i).din, decodeCmd_encode hwf, Except.map, hdin]

theorem decodeCmd_eq_error_of_zero {cmd : CmdWord} {c : FaultCause} (h : decodeCmd cmd 0 = .error c) (din : Word) :
    decodeCmd cmd din = .error c := by
  rw [← decodeCmd_map_withDin cmd 0, h, Except.map]

theorem isOk_decodeCmd (cmd : CmdWord) (din : Word) : (decodeCmd cmd din).isOk = (decodeCmd cmd 0).isOk := by
  rw [← decodeCmd_map_withDin cmd 0]
  cases decodeCmd cmd 0 <;> rfl

/-! ### The classes of the 256 command words (rule R75) -/

theorem decodeCmd_badCount_class : ∀ cmd : CmdWord,
    cmd = 0x30 ∨ (0x36 ≤ cmd ∧ cmd ≤ 0x3F) ∨ cmd = 0x40 ∨ (0x49 ≤ cmd ∧ cmd ≤ 0x4F) →
    decodeCmd cmd 0 = .error .badCount := by decide

theorem decodeCmd_illegalCmd_class : ∀ cmd : CmdWord,
    (0x01 ≤ cmd ∧ cmd ≤ 0x0F) ∨ (0x11 ≤ cmd ∧ cmd ≤ 0x1F) ∨ (0x21 ≤ cmd ∧ cmd ≤ 0x2F) ∨
    (0x51 ≤ cmd ∧ cmd ≤ 0x5F) ∨ (0x61 ≤ cmd ∧ cmd ≤ 0x6F) ∨ (0x71 ≤ cmd ∧ cmd ≤ 0x7F) ∨ 0x80 ≤ cmd →
    decodeCmd cmd 0 = .error .illegalCmd := by decide

/-- The legal words, counted in two halves of the range. -/
theorem countP_decodeCmd_isOk (din : Word) :
    ((List.range 256).countP fun n => (decodeCmd (BitVec.ofNat 8 n) din).isOk) = 19 := by
  simp only [isOk_decodeCmd]
  rw [show 256 = 128 + 128 from rfl, List.range_add, List.countP_append, List.countP_map]
  decide

/-- The words that spell no command are the rest of the 256. -/
theorem countP_not_decodeCmd_isOk (din : Word) :
    ((List.range 256).countP fun n => !(decodeCmd (BitVec.ofNat 8 n) din).isOk) = 237 := by
  have hsum := List.length_eq_countP_add_countP (fun n => (decodeCmd (BitVec.ofNat 8 n) din).isOk) (l := List.range 256)
  simp only [countP_decodeCmd_isOk, List.length_range, Bool.not_eq_true, Bool.decide_eq_false] at hsum
  omega

end Sys2Proof

namespace Sys2Proof.Machine

/-! ### The lanes of DIN that a command reads (rules R73 and R74) -/

/-- The number of lanes of DIN, from lane 0 on, that a command reads. -/
def lanesRead : Instr → Nat
  | .eblk cnt _ => cnt.toNat
  | .dblk cnt _ => cnt.toNat
  | .lene _ => 8
  | .lenb _ => 8
  | .stat => 0
  | .senc => 0
  | .sdec => 0
  | .fin => 0

section LanesAgree

variable {d e : Word} {r : Nat} (h : ∀ j : Fin 8, j.val < r → lane d j = lane e j)
include h

theorem encBlock_congr : encBlock d r = encBlock e r := by
  have hbyte (j : Fin 8) : groupByte d r j = groupByte e r j := ite_congr rfl (h j) fun _ => rfl
  have hgroup : group40 d r = group40 e r := by simp only [group40, hbyte]
  have hsymbol : encSymbol d r = encSymbol e r := by funext j; simp only [encSymbol, hgroup]
  simp only [encBlock, hsymbol]

/-- The scan reads the lanes below the count, and the lane it reports is one of them. -/
theorem decBlock_congr : decBlock d r = decBlock e r := by
  have hidx : laneIdx d r = laneIdx e r :=
    funext fun j => ite_congr rfl (fun hj => congrArg inv (h j hj)) fun _ => rfl
  have hfirst : firstInvalid d r = firstInvalid e r := by simp only [firstInvalid, hidx]
  have hvalid : validIdx d r = validIdx e r := by funext j; simp only [validIdx, hidx]
  unfold decBlock
  rw [hfirst, hvalid]
  cases he : firstInvalid e r with
  | none => rfl
  | some k => exact congrArg (DecResult.err k) (h k (lane_of_firstInvalid he).1)

end LanesAgree

/-- A command does the same with two operand words that agree on the lanes it reads. -/
theorem exec_withDin_congr {i : Instr} {d e : Word} (h : ∀ j : Fin 8, j.val < lanesRead i → lane d j = lane e j)
    (s : State) : exec (i.withDin d) s = exec (i.withDin e) s := by
  cases i with
  | stat | senc | sdec | fin => rfl
  | eblk cnt _ =>
    have hblock : encBlock d cnt.toNat = encBlock e cnt.toNat := encBlock_congr h
    simp only [Instr.withDin, exec, execEblk, encodeGroup, hblock]
  | dblk cnt _ =>
    have hblock : decBlock d cnt.toNat = decBlock e cnt.toNat := decBlock_congr h
    simp only [Instr.withDin, exec, execDblk, decodeGroup, hblock]
  | lene | lenb => rw [word_ext fun j => h j j.isLt]

/-- Two presentations of one command word that agree on the lanes its command reads have one outcome. -/
theorem runRequest_din_congr {cmd : CmdWord} {d e : Word} (s : State)
    (h : ∀ i, (encode i).cmd = cmd → ∀ j : Fin 8, j.val < lanesRead i → lane d j = lane e j) :
    runRequest { cmd := cmd, din := d } s = runRequest { cmd := cmd, din := e } s := by
  have hdin : decodeRequest { cmd := cmd, din := e } =
      (decodeRequest { cmd := cmd, din := d }).map (Instr.withDin e) := (decodeCmd_map_withDin cmd d e).symm
  cases hd : decodeRequest { cmd := cmd, din := d } with
  | error c =>
    rw [hd] at hdin
    rw [runRequest_of_error hd, runRequest_of_error hdin]
  | ok i =>
    rw [hd] at hdin
    obtain ⟨-, hcmd, hi⟩ := decodeCmd_eq_ok_iff.mp hd
    rw [runRequest_of_ok hd, runRequest_of_ok hdin, ← exec_withDin_congr (h i hcmd) s, hi]

theorem lanesRead_of_group {i : Instr} (h : opcField (encode i).cmd = 3 ∨ opcField (encode i).cmd = 4) :
    lanesRead i = (cntField (encode i).cmd).toNat := by
  cases i with
  | eblk | dblk => simp [lanesRead, encode]
  | stat | senc | sdec | fin | lene | lenb => simp [encode] at h

theorem lanesRead_of_ignored {i : Instr} (h3 : opcField (encode i).cmd ≠ 3) (h4 : opcField (encode i).cmd ≠ 4)
    (hlene : (encode i).cmd ≠ 0x60) (hlenb : (encode i).cmd ≠ 0x70) : lanesRead i = 0 := by
  cases i with
  | stat | senc | sdec | fin => rfl
  | eblk cnt => exact absurd (opcField_cmdWord 3 cnt) h3
  | dblk cnt => exact absurd (opcField_cmdWord 4 cnt) h4
  | lene => exact absurd rfl hlene
  | lenb => exact absurd rfl hlenb

/-! ### The statements -/

/-- Settles O3, command by command: OPC selects the command's row and the count passes its check. -/
theorem decodeOfEncode : Obligations.DecodeOfEncode := fun _ hwf => decodeCmd_encode hwf

/-- Settles O1: the legal words by the inversion of the decoder, the rejected ones class by class at DIN = 0, which
speaks for every DIN. -/
theorem commandMapIsComplete : Obligations.CommandMapIsComplete := by
  refine ⟨fun din => ⟨rfl, rfl, rfl, rfl, rfl, rfl⟩, fun r din h1 h5 => ?_, fun r din h1 h8 => ?_,
    fun cmd din h => decodeCmd_eq_error_of_zero (decodeCmd_badCount_class cmd h) din,
    fun cmd din h => decodeCmd_eq_error_of_zero (decodeCmd_illegalCmd_class cmd h) din, fun q c s hf hd => ?_,
    fun din => ⟨countP_decodeCmd_isOk din, countP_not_decodeCmd_isOk din⟩⟩
  · exact decodeCmd_eq_ok_iff.mpr ⟨decide_eq_true ⟨h1, h5⟩, (or_setWidth_eq_cmdWord r).1.symm, rfl⟩
  · exact decodeCmd_eq_ok_iff.mpr ⟨decide_eq_true ⟨h1, h8⟩, (or_setWidth_eq_cmdWord r).2.symm, rfl⟩
  · exact ⟨_, (runRequest_of_error hd s).trans (unlessFaulted_of_no_fault hf _), raiseFault_answered c s⟩

/-- Settles O4, by the inversion of the decoder. -/
theorem decodedCommandIsSpelledOnce : Obligations.DecodedCommandIsSpelledOnce := by
  rintro ⟨cmd, din⟩ i h
  obtain ⟨hwf, rfl, hdin⟩ := decodeCmd_eq_ok_iff.mp h
  refine ⟨hwf, rfl, fun hstat hsenc hsdec hfin => ?_⟩
  rw [← hdin]
  cases i with
  | stat => exact absurd rfl hstat
  | senc => exact absurd rfl hsenc
  | sdec => exact absurd rfl hsdec
  | fin => exact absurd rfl hfin
  | eblk | dblk | lene | lenb => rfl

/-- Settles O24: a command word's outcome depends on the lanes its command reads, which are none in the first clause and
the lanes below the count in the second. -/
theorem ignoredDinBitsChangeNothing : Obligations.IgnoredDinBitsChangeNothing := by
  refine ⟨fun cmd d e s h3 h4 hlene hlenb => runRequest_din_congr s ?_,
    fun cmd d e s hopc h => runRequest_din_congr s ?_⟩
  · rintro i rfl j hj
    rw [lanesRead_of_ignored h3 h4 hlene hlenb] at hj
    exact absurd hj (Nat.not_lt_zero _)
  · rintro i rfl j hj
    exact h j (lanesRead_of_group hopc ▸ hj)

/-- Settles O2: each word is the assembled form of its command. -/
theorem specWordsDecode : Obligations.SpecWordsDecode :=
  ⟨decodeOfEncode .stat rfl, decodeOfEncode .senc rfl, decodeOfEncode .sdec rfl,
    decodeOfEncode (.eblk 5 0x68656C6C6F000000) rfl, decodeOfEncode (.dblk 2 0x6367000000000000) rfl,
    decodeOfEncode .fin rfl, decodeOfEncode (.lene 11) rfl, decodeOfEncode (.lenb 6) rfl⟩

end Sys2Proof.Machine

/-! ## The length calculator: the statements on 40_length.md

Every length is one division rounded up or down: the table F of rule R90 is what ceil(8n/5) adds for a remainder of n
mod 5. The identities and bounds then follow by linear arithmetic, and the two queries by the lemma that says what one
length response does. -/

namespace Sys2Proof.Machine

/-! ### The lengths as divisions (rules R90 and R91) -/

theorem partialSymbols_eq_ite : ∀ r < 5, partialSymbols r =
    if r = 0 then 0 else if r = 1 then 2 else if r = 2 then 4 else if r = 3 then 5 else 7 := by decide

theorem partialSymbols_eq_ceilDiv : ∀ r < 5, partialSymbols r = ceilDiv (8 * r) 5 := by decide

/-- Rule R94: full groups need 8 symbols for 5 bytes exactly, so only the last group rounds up. -/
theorem encodedLen_eq_ceilDiv (n : Nat) : encodedLen n = ceilDiv (8 * n) 5 := by
  rw [encodedLen, partialSymbols_eq_ceilDiv _ (Nat.mod_lt n (by decide))]
  unfold ceilDiv
  omega

/-- The quotient of `encodedLen_eq_ceilDiv`, in the form that `omega` reads. -/
theorem encodedLen_eq_div (n : Nat) : encodedLen n = (8 * n + 4) / 5 := encodedLen_eq_ceilDiv n

theorem bufferLen_eq_div (n : Nat) : bufferLen n = 8 * ((n + 4) / 5) := Nat.mul_comm ..

/-! ### The identities (rule R94) -/

theorem encodedLen_le_bufferLen (n : Nat) : encodedLen n ≤ bufferLen n := by
  rw [encodedLen_eq_div, bufferLen_eq_div]
  omega

theorem bufferLen_sub_encodedLen_le (n : Nat) : bufferLen n - encodedLen n ≤ 6 := by
  rw [encodedLen_eq_div, bufferLen_eq_div]
  omega

theorem bufferLen_sub_encodedLen_eq_zero_iff (n : Nat) : bufferLen n - encodedLen n = 0 ↔ n % 5 = 0 := by
  rw [encodedLen_eq_div, bufferLen_eq_div]
  omega

theorem bufferLen_mod (n : Nat) : bufferLen n % 8 = 0 := Nat.mul_mod_left _ 8

/-- The buffer length is the least multiple of 8 that holds the encoding. -/
theorem bufferLen_le_of_mod {n b : Nat} (hb : b % 8 = 0) (h : encodedLen n ≤ b) : bufferLen n ≤ b := by
  rw [encodedLen_eq_div] at h
  rw [bufferLen_eq_div]
  omega

theorem encodedLen_le_succ (n : Nat) : encodedLen n ≤ encodedLen (n + 1) := by
  rw [encodedLen_eq_div, encodedLen_eq_div]
  omega

theorem encodedLen_full_groups (k : Nat) : encodedLen (5 * k) = 8 * k := by
  rw [encodedLen_eq_div]
  omega

theorem decodedLen_encodedLen (n : Nat) : decodedLen (encodedLen n) = n := by
  rw [decodedLen, encodedLen_eq_div]
  omega

theorem decodedLen_bufferLen (n : Nat) : decodedLen (bufferLen n) = 5 * ceilDiv n 5 := by
  unfold decodedLen bufferLen
  omega

/-- A length without a partial group is a quotient without a remainder (rule R96). -/
theorem encodedLen_of_mod_eq_zero {n : Nat} (h : n % 5 = 0) : encodedLen n = 8 * n / 5 := by
  rw [encodedLen_eq_div]
  omega

theorem bufferLen_of_one_group {n : Nat} (h1 : 1 ≤ n) (h5 : n ≤ 5) : bufferLen n = 8 := by
  rw [bufferLen_eq_div]
  omega

/-! ### The counts of the groups (rule R93) -/

theorem kEnc_of_lt {r : Nat} (h : r < 5) : kEnc r = partialSymbols r := if_neg h.ne

theorem kDec_of_lt {r : Nat} (h : r < 8) : kDec r = 5 * r / 8 := if_neg h.ne

/-- The encoded length of `q` full groups and a rest, which may be empty. -/
theorem encodedLen_groups_add (q : Nat) {r : Nat} (h : r < 5) : encodedLen (5 * q + r) = q * kEnc 5 + kEnc r := by
  have hquot : (5 * q + r) / 5 = q := by omega
  have hrest : (5 * q + r) % 5 = r := by omega
  rw [encodedLen, hquot, hrest, kEnc_of_lt h, Nat.mul_comm]
  rfl

/-- The decoded length of `q` full groups and a rest, which may be empty. -/
theorem decodedLen_groups_add (q : Nat) {r : Nat} (h : r < 8) : decodedLen (8 * q + r) = q * kDec 8 + kDec r := by
  have hfull : kDec 8 = 5 := rfl
  rw [decodedLen, kDec_of_lt h, hfull]
  omega

/-! ### The bounds for a 64-bit count (rule R95) -/

theorem bufferLen_le_max (n : Word) : bufferLen n.toNat ≤ 0x19999999999999998 := by
  have hn := n.isLt
  rw [bufferLen_eq_div]
  omega

theorem encodedLen_le_max (n : Word) : encodedLen n.toNat ≤ 0x19999999999999998 :=
  (encodedLen_le_bufferLen _).trans (bufferLen_le_max n)

theorem bufferLen_lt (n : Word) : bufferLen n.toNat < 2 ^ 65 := (bufferLen_le_max n).trans_lt (by decide)

theorem encodedLen_lt (n : Word) : encodedLen n.toNat < 2 ^ 65 := (encodedLen_le_max n).trans_lt (by decide)

theorem decodedLen_lt (n : Word) : decodedLen n.toNat < 2 ^ 64 := by
  have hn := n.isLt
  unfold decodedLen
  omega

/-- At the largest count both lengths reach their bound, since 2^64 - 1 is a multiple of 5. -/
theorem bufferLen_at_max : bufferLen (2 ^ 64 - 1) = 0x19999999999999998 := by decide

theorem encodedLen_at_max : encodedLen (2 ^ 64 - 1) = 0x19999999999999998 := by decide

/-! ### The length queries (rules R96 and R97) -/

theorem exec_lene {s : State} (h : s.fault = false) (n : Word) :
    exec (.lene n) s = .next (respondLength (encodedLen n.toNat) s) := unlessFaulted_of_no_fault h _

theorem exec_lenb {s : State} (h : s.fault = false) (n : Word) :
    exec (.lenb n) s = .next (respondLength (bufferLen n.toNat) s) := unlessFaulted_of_no_fault h _

theorem respondLength_answered (L : Nat) (s : State) :
    Answered s (respondLength L s) .ok 0 0 (L.testBit 64) (BitVec.ofNat 64 L) :=
  respond_answered _ _ _ _ s (by decide)

/-- RDATA and LEN64 together hold a 65-bit length without loss. -/
theorem respondLength_exact {L : Nat} (h : L < 2 ^ 65) (s : State) :
    (respondLength L s).rdata.toNat + 2 ^ 64 * (statusLen64 (respondLength L s).rstat).toNat = L := by
  rw [(respondLength_answered L s).rdata, (respondLength_answered L s).len64]
  exact length_rejoins L h

/-- In a faulted unit every command answers FAULTED and writes nothing else. -/
theorem exec_answers_faulted {s : State} (h : s.fault = true) (i : Instr) :
    ∃ t, exec i s = .next t ∧ Answered s t .faulted 0 0 false 0 :=
  ⟨_, exec_of_fault h i, respondFaulted_answered s⟩

/-- A length command's word with a nonzero count lies in rule R75's illegal class of its row. -/
theorem or_setWidth_mem_illegal : ∀ c : BitVec 4, c ≠ 0 →
    (0x61 ≤ 0x60 ||| c.setWidth 8 ∧ 0x60 ||| c.setWidth 8 ≤ (0x6F : CmdWord)) ∧
    (0x71 ≤ 0x70 ||| c.setWidth 8 ∧ 0x70 ||| c.setWidth 8 ≤ (0x7F : CmdWord)) := by decide

theorem decodeCmd_lene_illegal {c : BitVec 4} (hc : c ≠ 0) (n : Word) :
    decodeCmd (0x60 ||| c.setWidth 8) n = .error .illegalCmd :=
  decodeCmd_eq_error_of_zero (decodeCmd_illegalCmd_class _
    (.inr (.inr (.inr (.inr (.inl (or_setWidth_mem_illegal c hc).1)))))) n

theorem decodeCmd_lenb_illegal {c : BitVec 4} (hc : c ≠ 0) (n : Word) :
    decodeCmd (0x70 ||| c.setWidth 8) n = .error .illegalCmd :=
  decodeCmd_eq_error_of_zero (decodeCmd_illegalCmd_class _
    (.inr (.inr (.inr (.inr (.inr (.inl (or_setWidth_mem_illegal c hc).2))))))) n

/-! ### The statements -/

/-- Settles O15, identity by identity, from the lengths as divisions. -/
theorem lengthIdentities : Obligations.LengthIdentities :=
  ⟨encodedLen_eq_ceilDiv,
    fun n => ⟨bufferLen_mod n, encodedLen_le_bufferLen n, bufferLen_sub_encodedLen_le n,
      bufferLen_sub_encodedLen_eq_zero_iff n⟩,
    fun _ _ => bufferLen_le_of_mod, encodedLen_le_succ, encodedLen_full_groups, decodedLen_encodedLen,
    decodedLen_bufferLen⟩

/-- Settles O16: no length of a 64-bit count exceeds 65 bits, so the response holds it whole. -/
theorem lengthResultsAreExact : Obligations.LengthResultsAreExact :=
  ⟨fun n => ⟨encodedLen_lt n, bufferLen_lt n, decodedLen_lt n, encodedLen_le_max n, bufferLen_le_max n⟩,
    encodedLen_at_max, bufferLen_at_max,
    fun n s hf => ⟨⟨_, exec_lene hf n, respondLength_exact (encodedLen_lt n) s⟩,
      ⟨_, exec_lenb hf n, respondLength_exact (bufferLen_lt n) s⟩⟩⟩

/-- Settles O17: full groups alone are full groups with an empty rest. -/
theorem groupCountsSumToLengths : Obligations.GroupCountsSumToLengths :=
  ⟨rfl, rfl,
    fun q => ⟨encodedLen_groups_add q (r := 0) (by decide), decodedLen_groups_add q (r := 0) (by decide)⟩,
    fun q _ _ h4 => encodedLen_groups_add q (Nat.lt_succ_of_le h4),
    fun q _ _ h7 => decodedLen_groups_add q (Nat.lt_succ_of_le h7)⟩

/-- Settles O18: the word by the decoder's lemmas, the answer by what a length response does. -/
theorem leneGivesEncodedLength : Obligations.LeneGivesEncodedLength :=
  ⟨fun n => decodeOfEncode (.lene n) rfl, fun _ n hc => decodeCmd_lene_illegal hc n,
    fun n s hf => ⟨_, exec_lene hf n, respondLength_answered _ s⟩, fun n _ hf => exec_answers_faulted hf (.lene n),
    rfl, encodedLen_at_max, fun _ => encodedLen_of_mod_eq_zero, _, exec_lene rfl 11, by decide⟩

/-- Settles O19, as O18 for the buffer length. -/
theorem lenbGivesBufferLength : Obligations.LenbGivesBufferLength :=
  ⟨fun n => decodeOfEncode (.lenb n) rfl, fun _ n hc => decodeCmd_lenb_illegal hc n,
    fun n s hf => ⟨_, exec_lenb hf n, respondLength_answered _ s⟩, fun n _ hf => exec_answers_faulted hf (.lenb n),
    rfl, fun _ => bufferLen_of_one_group, rfl, bufferLen_at_max, _, exec_lenb rfl 6, by decide⟩

/-- Settles O14: F is read off its table, and the other two lengths are the closed forms by definition. -/
theorem lengthClosedForms : Obligations.LengthClosedForms :=
  ⟨fun n => congrArg (8 * (n / 5) + ·) (partialSymbols_eq_ite _ (Nat.mod_lt n (by decide))), fun _ => rfl, fun _ => rfl⟩

end Sys2Proof.Machine

/-! ## The encoder: the statements on 41_encoder.md

The group is read in two ways: as a number, whose base-32 digits are the fields, and as a bit string, which is the bit
string of its bytes with zeros after it. The commands are said once, check by check. A stream is then an induction over
its bytes five at a time, on the machine's side and on the bit string's side. -/

namespace Sys2Proof.Machine

/-! ### The fields of the working word (rules R101 and R102) -/

theorem fieldIdx_toNat (w : Word) (j : Fin 8) : (fieldIdx w j).toNat = w.toNat / 2 ^ (59 - 5 * j.val) % 32 := by
  rw [fieldIdx, BitVec.extractLsb'_toNat, BitVec.toNat_ushiftRight, Nat.shiftRight_zero, Nat.shiftRight_eq_div_pow]

/-- A shift and a mask of the working word is a slice of it. -/
theorem fieldIdx_eq_extract (w : Word) (j : Fin 8) : fieldIdx w j = w.extractLsb' (59 - 5 * j.val) 5 := by
  apply BitVec.eq_of_toNat_eq
  rw [fieldIdx_toNat, BitVec.extractLsb'_toNat, Nat.shiftRight_eq_div_pow]

/-- The 24 low bits of the working word lie below every field. -/
theorem fieldIdx_leftJustified (g : BitVec 40) (j : Fin 8) :
    fieldIdx (leftJustified g) j = g.extractLsb' (35 - 5 * j.val) 5 := by
  have hj := j.isLt
  rw [fieldIdx_eq_extract, leftJustified, extract_append_high _ _ _ _ (by omega)]
  congr 1
  omega

theorem fieldIdx_leftJustified_toNat (g : BitVec 40) (j : Fin 8) :
    (fieldIdx (leftJustified g) j).toNat = g.toNat / 2 ^ (35 - 5 * j.val) % 32 := by
  rw [fieldIdx_leftJustified, BitVec.extractLsb'_toNat, Nat.shiftRight_eq_div_pow]

/-- The eight fields in order are the whole group. -/
theorem fields_cover (g : BitVec 40) :
    fieldIdx (leftJustified g) 0 ++ fieldIdx (leftJustified g) 1 ++ fieldIdx (leftJustified g) 2
      ++ fieldIdx (leftJustified g) 3 ++ fieldIdx (leftJustified g) 4 ++ fieldIdx (leftJustified g) 5
      ++ fieldIdx (leftJustified g) 6 ++ fieldIdx (leftJustified g) 7 = g := by
  simp only [fieldIdx_leftJustified]
  iterate 7 rw [BitVec.extractLsb'_append_extractLsb'_eq_extractLsb' (by decide)]
  exact extract_all g

/-- Reading across the seam of a concatenation: the low bits of the first part, then the high bits of the second. -/
theorem extract_append_seam {n m k a b : Nat} (x : BitVec n) (y : BitVec m) (h : k + b = m) :
    (x ++ y).extractLsb' k (a + b) = x.extractLsb' 0 a ++ y.extractLsb' k b := by
  rw [← BitVec.extractLsb'_append_extractLsb'_eq_extractLsb' h.symm, extract_append_high _ _ _ _ (Nat.le_refl m),
    extract_append_low _ _ _ _ h.le, Nat.sub_self]

/-! ### The group and its block (rules R101, R103 and R104) -/

theorem lane_toNat (w : Word) (j : Fin 8) : (lane w j).toNat = w.toNat / 256 ^ (7 - j.val) % 256 := by
  have hpow : 256 ^ (7 - j.val) = 2 ^ (56 - 8 * j.val) := by
    rw [show 256 = 2 ^ 8 from rfl, ← Nat.pow_mul]
    congr 1
    omega
  rw [lane, BitVec.extractLsb'_toNat, Nat.shiftRight_eq_div_pow, hpow]

theorem groupByte_toNat (din : Word) (r : Nat) (j : Fin 8) :
    (groupByte din r j).toNat = if j.val < r then din.toNat / 256 ^ (7 - j.val) % 256 else 0 := by
  rw [groupByte, apply_ite BitVec.toNat, lane_toNat]
  rfl

/-- The group is the big-endian integer of its bytes. -/
theorem group40_toNat (din : Word) (r : Nat) :
    (group40 din r).toNat = (groupByte din r 0).toNat * 256 ^ 4 + (groupByte din r 1).toNat * 256 ^ 3
      + (groupByte din r 2).toNat * 256 ^ 2 + (groupByte din r 3).toNat * 256 + (groupByte din r 4).toNat := by
  simp only [group40, toNat_append_eq_add]
  omega

theorem leftJustified_toNat (g : BitVec 40) : (leftJustified g).toNat = g.toNat * 2 ^ 24 :=
  (toNat_append_eq_add g 0).trans (Nat.mul_comm ..)

/-- Each lane of the block is one entry of ALPHA. -/
@[simp] theorem lane_encBlock (din : Word) (r : Nat) (j : Fin 8) :
    lane (encBlock din r).1 j = alpha (fieldIdx (leftJustified (group40 din r)) j) :=
  lane_packLanes (encSymbol din r) j

theorem kEnc_eq_getD : ∀ r ≤ 5, kEnc r = [0, 2, 4, 5, 7, 8].getD r 0 := by decide

/-- The significant symbols are just enough for the bytes of the group. -/
theorem kEnc_eq_ceilDiv : ∀ r ≤ 5, kEnc r = ceilDiv (8 * r) 5 := by decide

/-! ### The padding of a partial group (rule R105) -/

/-- The missing bytes leave zeros at the low end of the group. -/
theorem group40_dvd (din : Word) {r : Nat} (h : r ≤ 5) : 2 ^ (40 - 8 * r) ∣ (group40 din r).toNat := by
  rw [group40_toNat]
  interval_cases r <;> simp [groupByte] <;> omega

/-- The low `z` bits of field j are 0 when they lie past the `r` bytes of the group. -/
theorem field_mod_eq_zero (din : Word) {r z : Nat} (hr : r ≤ 5) (j : Fin 8) (hz : z ≤ 5)
    (h : 8 * r + z ≤ 5 * (j.val + 1)) : (fieldIdx (leftJustified (group40 din r)) j).toNat % 2 ^ z = 0 := by
  have hdvd : 2 ^ (35 - 5 * j.val) * 2 ^ z ∣ (group40 din r).toNat := by
    rw [← Nat.pow_add]
    exact (Nat.pow_dvd_pow 2 (by omega)).trans (group40_dvd din hr)
  rw [fieldIdx_leftJustified_toNat, Nat.mod_mod_of_dvd _ (Nat.pow_dvd_pow 2 hz), ← Nat.mod_mul_right_div_self,
    Nat.mod_eq_zero_of_dvd hdvd, Nat.zero_div]

/-- A field that lies past the bytes of the group whole is index 0, the symbol '0'. -/
theorem field_eq_zero (din : Word) {r : Nat} (hr : r ≤ 5) {j : Fin 8} (h : 8 * r ≤ 5 * j.val) :
    fieldIdx (leftJustified (group40 din r)) j = 0 := by
  apply BitVec.eq_of_toNat_eq
  rw [← Nat.mod_eq_of_lt (fieldIdx _ j).isLt]
  exact field_mod_eq_zero din hr j (Nat.le_refl 5) (by omega)

/-! ### The commands SENC and EBLK (rules R106 and R108) -/

/-- SENC's next state: an encode stream is open. -/
def openEncode (s : State) : State := respond .ok 0 0 false 0 (s.setStream .enc)

theorem openEncode_answered (s : State) : Answered (s.setStream .enc) (openEncode s) .ok 0 0 false 0 :=
  respond_answered _ _ _ _ _ (by decide)

section Commands

variable {s : State} (hf : s.fault = false)
include hf

theorem exec_senc : exec .senc s = .next (openEncode s) := unlessFaulted_of_no_fault hf _

variable {cnt : BitVec 4} (din : Word)

theorem exec_eblk_badCount (hc : cnt.toNat = 0 ∨ 5 < cnt.toNat) :
    exec (.eblk cnt din) s = .next (raiseFault .badCount s) := by
  have hcount : (!legalEncCount cnt) = true := by
    rw [legalEncCount, ← decide_not]
    exact decide_eq_true (by omega)
  rw [exec, execEblk, unlessFaulted_of_no_fault hf, if_pos hcount]

variable (hc : 1 ≤ cnt.toNat ∧ cnt.toNat ≤ 5)
include hc

theorem exec_eblk_of_legal : exec (.eblk cnt din) s =
    if s.mode ≠ .enc ∨ s.final = true then .next (raiseFault .seqErr s)
    else if overflows s cnt.toNat then .next (raiseFault .posOvf s)
    else .next (encodeGroup cnt.toNat din s) := by
  have hcount : legalEncCount cnt = true := decide_eq_true hc
  rw [exec, execEblk, unlessFaulted_of_no_fault hf, hcount]
  rfl

theorem exec_eblk_seqErr (hm : s.mode ≠ .enc ∨ s.final = true) :
    exec (.eblk cnt din) s = .next (raiseFault .seqErr s) :=
  (exec_eblk_of_legal hf din hc).trans (if_pos hm)

variable (hm : s.mode = .enc) (hfin : s.final = false)
include hm hfin

theorem exec_eblk_posOvf (ho : Config.posMax < s.pos.toNat + cnt.toNat) :
    exec (.eblk cnt din) s = .next (raiseFault .posOvf s) := by
  rw [exec_eblk_of_legal hf din hc, if_neg (by simp [hm, hfin]), if_pos (by simpa [overflows] using ho)]

theorem exec_eblk_ok (ho : s.pos.toNat + cnt.toNat ≤ Config.posMax) :
    exec (.eblk cnt din) s = .next (encodeGroup cnt.toNat din s) := by
  rw [exec_eblk_of_legal hf din hc, if_neg (by simp [hm, hfin]), if_neg (by simpa [overflows] using ho)]

end Commands

theorem encodeGroup_answered (r : Nat) (din : Word) (s : State) :
    Answered (s.acceptGroup r (decide (r < 5))) (encodeGroup r din s) .ok (kEnc r) 0 false (encBlock din r).1 :=
  respond_answered _ _ _ _ _ ((kEnc_le r).trans_lt (by decide))

theorem decodeCmd_senc_illegal : ∀ c : BitVec 4, c ≠ 0 →
    decodeCmd (0x10 ||| c.setWidth 8) 0 = .error .illegalCmd := by decide

/-! ### What a group command that responds OK has done (rules R107 and R109) -/

/-- Only the last action of EBLK responds OK. -/
theorem eq_encodeGroup_of_ok {cnt : BitVec 4} {din : Word} {s t : State} (h : exec (.eblk cnt din) s = .next t)
    (hok : statusCode t.rstat = codeBits .ok) : t = encodeGroup cnt.toNat din s := by
  obtain rfl | he := exec_cases h
  · exact absurd ((respondFaulted_answered s).code.symm.trans hok) (by decide)
  · cases he with
    | violation _ c =>
      have hcode := (raiseFault_answered c s).code.symm.trans hok
      cases c <;> exact absurd hcode (by decide)
    | report _ _ _ _ hi => simp at hi
    | encode => rfl

/-- Only the acceptance of a group of valid symbols makes DBLK respond OK. -/
theorem eq_deliverGroup_of_ok {cnt : BitVec 4} {din : Word} {s t : State} (h : exec (.dblk cnt din) s = .next t)
    (hok : statusCode t.rstat = codeBits .ok) :
    t = deliverGroup cnt.toNat (keptWord (validIdx din cnt.toNat) (kDec cnt.toNat)) (kDec cnt.toNat) s := by
  obtain rfl | he := exec_cases h
  · exact absurd ((respondFaulted_answered s).code.symm.trans hok) (by decide)
  · cases he with
    | violation _ c =>
      have hcode := (raiseFault_answered c s).code.symm.trans hok
      cases c <;> exact absurd hcode (by decide)
    | report _ _ _ _ hi => simp at hi
    | stored | reject => exact absurd ((statusCode_packStatus ..).symm.trans hok) (by decide)
    | deliver => rfl

/-! ### Cutting a list into groups -/

/-- Induction over a list in groups of `k`. -/
theorem drop_induction {α : Type} {k : Nat} (hk : 0 < k) {P : List α → Prop} (nil : P [])
    (group : ∀ l, l ≠ [] → P (l.drop k) → P l) (l : List α) : P l := by
  by_cases hl : l = []
  · exact hl ▸ nil
  · exact group l hl (drop_induction hk nil group (l.drop k))
termination_by l.length
decreasing_by
  have := List.length_pos_iff.mpr hl
  rw [List.length_drop]
  omega

/-- The groups one by one: group j starts at `k * j`. -/
theorem groupsOf_eq_map_range {α : Type} {k : Nat} (hk : 0 < k) (l : List α) :
    groupsOf k l.length l = (List.range (ceilDiv l.length k)).map fun j => (l.drop (k * j)).take k := by
  induction l using drop_induction hk with
  | nil => rw [← groupsOf_length hk rfl]; rfl
  | group l hl ih =>
    have hlen := groupsOf_length hk (l := l) rfl
    rw [groupsOf_step hk hl, List.length_cons, groupsOf_length hk rfl] at hlen
    rw [groupsOf_step hk hl, ih, ← hlen, List.range_succ_eq_map, List.map_cons, List.map_map]
    simp [Function.comp_def, Nat.mul_succ, Nat.add_comm]

/-! ### Bit strings (log entry 16) -/

@[simp] theorem bitsOf_length {n : Nat} (w : BitVec n) : (bitsOf w).length = n := by simp [bitsOf]

theorem bitsOf_append {n m : Nat} (x : BitVec n) (y : BitVec m) : bitsOf (x ++ y) = bitsOf x ++ bitsOf y := by
  apply List.ext_getElem (by simp)
  intro i _ _
  simp only [bitsOf, List.getElem_append, List.getElem_map, List.getElem_range, BitVec.getMsbD_append, List.length_map,
    List.length_range]
  by_cases hi : i < n
  · rw [dif_pos hi, if_neg (Nat.not_le.mpr hi)]
  · rw [dif_neg hi, if_pos (Nat.not_lt.mp hi)]

/-- A slice of a word is a slice of its bits. -/
theorem bitsOf_extract {n : Nat} (w : BitVec n) {k len : Nat} (h : k + len ≤ n) :
    bitsOf (w.extractLsb' k len) = ((bitsOf w).drop (n - (k + len))).take len := by
  apply List.ext_getElem
  · simp; omega
  intro i h1 _
  rw [bitsOf_length] at h1
  simp only [bitsOf, List.getElem_take, List.getElem_drop, List.getElem_map, List.getElem_range,
    BitVec.getMsbD_extractLsb']
  rw [decide_eq_true h1, decide_eq_true (by omega : k + len - i ≤ n),
    show n - (k + len - i) = n - (k + len) + i by omega]
  rfl

theorem flatMap_bitsOf_length (d : List Byte) : (d.flatMap bitsOf).length = 8 * d.length := by
  simp [List.length_flatMap, Nat.mul_comm]

/-- The bits of the bytes from the n-th on. -/
theorem drop_flatMap_bitsOf (d : List Byte) (n : Nat) : (d.flatMap bitsOf).drop (8 * n) = (d.drop n).flatMap bitsOf := by
  induction n generalizing d with
  | zero => rfl
  | succ n ih =>
    cases d with
    | nil => simp
    | cons b d =>
      rw [Nat.mul_succ, Nat.add_comm, ← List.drop_drop, List.flatMap_cons, List.drop_left' (bitsOf_length b), ih,
        List.drop_succ_cons]

/-- The bits of the first n bytes. -/
theorem take_flatMap_bitsOf (d : List Byte) (n : Nat) : (d.flatMap bitsOf).take (8 * n) = (d.take n).flatMap bitsOf := by
  have hsplit : d.flatMap bitsOf = (d.take n).flatMap bitsOf ++ (d.drop n).flatMap bitsOf := by
    rw [← List.flatMap_append, List.take_append_drop]
  rw [← drop_flatMap_bitsOf] at hsplit
  exact List.append_cancel_right ((List.take_append_drop _ _).trans hsplit)

theorem idxOfBits_bitsOf : ∀ v : Idx, idxOfBits (bitsOf v) = v := by decide

/-- Zeros after the bits of an index are its missing bits. -/
theorem idxOfBits_append_false (bs : List Bool) (n : Nat) : idxOfBits (bs ++ List.replicate n false) = idxOfBits bs := by
  have hbit (i : Nat) : (bs ++ List.replicate n false).getD i false = bs.getD i false := by
    obtain h | h := Nat.lt_or_ge i bs.length
    · rw [List.getD_append _ _ _ _ h]
    · rw [List.getD_append_right _ _ _ _ h, List.getD_eq_default _ _ h, List.getD_eq_getElem?_getD,
        List.getElem?_getD_replicate_default_eq]
  simp only [idxOfBits, hbit]

/-! ### The symbols of a byte sequence, one by one -/

/-- Symbol j of the encoding of `d`: the alphabet's entry for the j-th five bits of its bit string, missing bits 0. -/
def symbolAt (d : List Byte) (j : Nat) : Byte := alpha (idxOfBits (((d.flatMap bitsOf).drop (5 * j)).take 5))

theorem canonicalSymbols_eq (d : List Byte) :
    canonicalSymbols d = (List.range (encodedLen d.length)).map (symbolAt d) := by
  rw [canonicalSymbols, groupsOf_eq_map_range (by decide), flatMap_bitsOf_length, ← encodedLen_eq_ceilDiv, List.map_map]
  rfl

/-- Past the last bit every symbol is '0'. -/
theorem symbolAt_of_le {d : List Byte} {j : Nat} (h : encodedLen d.length ≤ j) : symbolAt d j = 0x30 := by
  rw [encodedLen_eq_div] at h
  rw [symbolAt, List.drop_eq_nil_of_le (by rw [flatMap_bitsOf_length]; omega)]
  rfl

/-- Eight symbols are five bytes. -/
theorem symbolAt_add_eight (d : List Byte) (j : Nat) : symbolAt d (8 + j) = symbolAt (d.drop 5) j := by
  rw [symbolAt, symbolAt, ← drop_flatMap_bitsOf, List.drop_drop, Nat.mul_add]

theorem symbolAt_take_five (d : List Byte) {j : Nat} (hj : j < 8) : symbolAt (d.take 5) j = symbolAt d j := by
  rw [symbolAt, symbolAt, ← take_flatMap_bitsOf, List.drop_take, List.take_take, Nat.min_eq_left (by omega)]

theorem bitsOf_group40 (din : Word) (r : Nat) :
    bitsOf (group40 din r) = ([0, 1, 2, 3, 4].map (groupByte din r)).flatMap bitsOf := by
  have hsplit (b0 b1 b2 b3 b4 : Byte) : bitsOf (b0 ++ b1 ++ b2 ++ b3 ++ b4) =
      bitsOf b0 ++ bitsOf b1 ++ bitsOf b2 ++ bitsOf b3 ++ bitsOf b4 := by
    rw [bitsOf_append (n := 32), bitsOf_append (n := 24), bitsOf_append (n := 16), bitsOf_append]
  simp [group40, hsplit]

/-- The bytes of an assembled group line are the group's, zero-extended (rules R78 and R101). -/
theorem groupBytes_packBytes {g : List Byte} (hg : g.length ≤ 5) :
    [0, 1, 2, 3, 4].map (groupByte (packBytes g) g.length) = g ++ List.replicate (5 - g.length) 0 := by
  have hbyte (j : Fin 8) : groupByte (packBytes g) g.length j = g.getD j.val 0 := by
    rw [groupByte, packBytes, lane_packLanes, ite_eq_left_iff]
    exact fun hj => (List.getD_eq_default _ _ (Nat.not_lt.mp hj)).symm
  rw [funext hbyte]
  match g, hg with
  | [], _ | [_], _ | [_, _], _ | [_, _, _], _ | [_, _, _, _], _ | [_, _, _, _, _], _ => rfl

theorem bitsOf_field (g : BitVec 40) (j : Fin 8) :
    bitsOf (fieldIdx (leftJustified g) j) = ((bitsOf g).drop (5 * j.val)).take 5 := by
  have hj := j.isLt
  rw [fieldIdx_leftJustified, bitsOf_extract _ (by omega), show 40 - (35 - 5 * j.val + 5) = 5 * j.val by omega]

/-- The encoder's block of an assembled group line holds the symbols of its bytes. -/
theorem lane_encBlock_packBytes {g : List Byte} (hg : g.length ≤ 5) (j : Fin 8) :
    lane (encBlock (packBytes g) g.length).1 j = symbolAt g j.val := by
  have hpad : bitsOf (group40 (packBytes g) g.length) =
      g.flatMap bitsOf ++ List.replicate (8 * (5 - g.length)) false := by
    have hzero : bitsOf (0 : Byte) = List.replicate 8 false := rfl
    rw [bitsOf_group40, groupBytes_packBytes hg, List.flatMap_append, List.flatMap_replicate, hzero,
      List.flatten_replicate_replicate, Nat.mul_comm]
  rw [lane_encBlock, symbolAt, ← idxOfBits_bitsOf (fieldIdx _ j), bitsOf_field, hpad, List.drop_append,
    List.take_append, List.drop_replicate, List.take_replicate, idxOfBits_append_false]

theorem lanesOf_encBlock_packBytes {g : List Byte} (hg : g.length ≤ 5) :
    lanesOf (encBlock (packBytes g) g.length).1 = (List.range 8).map (symbolAt g) := by
  rw [lanesOf, funext (lane_encBlock_packBytes hg)]
  rfl

/-! ### The groups of a byte sequence together -/

/-- The symbols of the first five bytes and those of the rest. -/
theorem map_symbolAt_range_add (d : List Byte) (m : Nat) : (List.range (8 + m)).map (symbolAt d) =
    (List.range 8).map (symbolAt (d.take 5)) ++ (List.range m).map (symbolAt (d.drop 5)) := by
  rw [List.range_add, List.map_append, List.map_map]
  congr 1
  · exact List.map_congr_left fun j hj => (symbolAt_take_five d (List.mem_range.mp hj)).symm
  · exact List.map_congr_left fun j _ => symbolAt_add_eight d j

/-- All lanes of the blocks of a byte sequence (rule R111). -/
theorem flatMap_lanes_groups (d : List Byte) :
    ((groupsOf 5 d.length d).flatMap fun g => lanesOf (encBlock (packBytes g) g.length).1) =
      (List.range (bufferLen d.length)).map (symbolAt d) := by
  induction d using drop_induction (k := 5) (by decide) with
  | nil => rfl
  | group d hd ih =>
    have hpos := List.length_pos_iff.mpr hd
    have hlen : bufferLen d.length = 8 + bufferLen (d.length - 5) := by
      rw [bufferLen_eq_div, bufferLen_eq_div]
      omega
    rw [groupsOf_step (by decide) hd, List.flatMap_cons, ih, lanesOf_encBlock_packBytes (List.length_take_le 5 d), hlen,
      map_symbolAt_range_add, List.length_drop]

/-- The significant lanes of the blocks of a byte sequence (rule R110). -/
theorem flatMap_kept_groups (d : List Byte) :
    ((groupsOf 5 d.length d).flatMap fun g => (lanesOf (encBlock (packBytes g) g.length).1).take (kEnc g.length)) =
      canonicalSymbols d := by
  rw [canonicalSymbols_eq]
  induction d using drop_induction (k := 5) (by decide) with
  | nil => rfl
  | group d hd ih =>
    rw [groupsOf_step (by decide) hd, List.flatMap_cons, ih, lanesOf_encBlock_packBytes (List.length_take_le 5 d),
      ← List.map_take, List.take_range, Nat.min_eq_left (kEnc_le _)]
    obtain hlt | hge := Nat.lt_or_ge d.length 5
    · rw [List.take_of_length_le hlt.le, List.drop_of_length_le hlt.le]
      have hlen := encodedLen_groups_add 0 hlt
      rw [Nat.mul_zero, Nat.zero_add, Nat.zero_mul, Nat.zero_add] at hlen
      rw [hlen]
      exact List.append_nil _
    · have hlen : encodedLen d.length = 8 + encodedLen (d.length - 5) := by
        rw [encodedLen_eq_div, encodedLen_eq_div]
        omega
      rw [hlen, map_symbolAt_range_add, List.length_take_of_le hge, List.length_drop]
      rfl

/-- The symbols from the encoded length to the buffer length are padding. -/
theorem map_symbolAt_bufferLen (d : List Byte) : (List.range (bufferLen d.length)).map (symbolAt d) =
    canonicalSymbols d ++ List.replicate (bufferLen d.length - encodedLen d.length) 0x30 := by
  have hpad (p : Nat) : (List.range p).map (symbolAt d ∘ (encodedLen d.length + ·)) = List.replicate p 0x30 := by
    rw [List.eq_replicate_iff, List.length_map, List.length_range, List.forall_mem_map]
    exact ⟨rfl, fun j _ => symbolAt_of_le (Nat.le_add_right _ j)⟩
  rw [canonicalSymbols_eq, ← Nat.add_sub_cancel' (encodedLen_le_bufferLen d.length), List.range_add, List.map_append,
    List.map_map, Nat.add_sub_cancel_left, hpad]

/-! ### A stream of EBLK commands -/

/-- The response to the EBLK of an assembled group line. -/
structure EncodesGroup (g : List Byte) (r : Response) : Prop where
  code : statusCode r.rstat = codeBits .ok
  kcnt : (statusKcnt r.rstat).toNat = kEnc g.length
  rdata : r.rdata = (encBlock (packBytes g) g.length).1

theorem encodeGroup_encodesGroup (g : List Byte) (s : State) :
    EncodesGroup g (encodeGroup g.length (packBytes g) s).response :=
  have h := encodeGroup_answered g.length (packBytes g) s
  ⟨h.code, h.kcnt, h.rdata⟩

theorem issue_eblkRequest {s : State} {g : List Byte} (hg : 1 ≤ g.length ∧ g.length ≤ 5) (hf : s.fault = false)
    (hm : s.mode = .enc) (hfin : s.final = false) (ho : s.pos.toNat + g.length ≤ Config.posMax) :
    issue (eblkRequest g) s = .next (encodeGroup g.length (packBytes g) s) := by
  have hcnt : (BitVec.ofNat 4 g.length).toNat = g.length := by
    rw [BitVec.toNat_ofNat]
    omega
  rw [← hcnt] at hg ho
  have hexec := exec_eblk_ok hf (packBytes g) hg hm hfin ho
  rw [hcnt] at hexec
  rw [issue_eq, eblkRequest, runRequest_of_ok (decodeOfEncode (.eblk _ _) (decide_eq_true hg)), hexec]

/-- An open encode stream with room for the bytes `d`, which has taken no final group if there are any. -/
structure TakesBytes (s : State) (d : List Byte) : Prop where
  fault : s.fault = false
  mode : s.mode = .enc
  final : d ≠ [] → s.final = false
  room : s.pos.toNat + d.length ≤ Config.posMax

theorem TakesBytes.issue_first {s : State} {d : List Byte} (h : TakesBytes s d) (hd : d ≠ []) :
    issue (eblkRequest (d.take 5)) s = .next (encodeGroup (d.take 5).length (packBytes (d.take 5)) s) := by
  have hpos := List.length_pos_iff.mpr hd
  have htake := List.length_take (i := 5) (l := d)
  have hroom := h.room
  exact issue_eblkRequest (by omega) h.fault h.mode (h.final hd) (by omega)

/-- The first group is full if any byte is left after it. -/
theorem TakesBytes.rest {s : State} {d : List Byte} (h : TakesBytes s d) (din : Word) :
    TakesBytes (encodeGroup (d.take 5).length din s) (d.drop 5) where
  fault := h.fault
  mode := h.mode
  final hrest := by
    have hlt : 5 < d.length := Nat.not_le.mp (mt List.drop_eq_nil_of_le hrest)
    exact decide_eq_false (Nat.not_lt.mpr (List.length_take_of_le hlt.le).ge)
  room := by
    have hroom := h.room
    have htake := List.length_take (i := 5) (l := d)
    have hpos : (encodeGroup (d.take 5).length din s).pos.toNat = s.pos.toNat + (d.take 5).length :=
      toNat_add_of_le_posMax (by omega)
    rw [hpos, List.length_drop]
    omega

/-- `t` is `s` after the acceptance of `n` more bytes: POS and FINAL have moved, and there is a new response. -/
def HasAccepted (s : State) (n : Nat) (t : State) : Prop :=
  ∃ isFinal status data, t = (s.acceptGroup n isFinal).setResponse status data

theorem hasAccepted_zero (s : State) : HasAccepted s 0 s :=
  ⟨s.final, s.rstat, s.rdata, by simp [State.acceptGroup, State.setResponse]⟩

theorem hasAccepted_encodeGroup (r : Nat) (din : Word) (s : State) : HasAccepted s r (encodeGroup r din s) :=
  ⟨_, _, _, rfl⟩

theorem HasAccepted.trans {s t u : State} {m n : Nat} (h : HasAccepted s m t) (k : HasAccepted t n u) :
    HasAccepted s (m + n) u := by
  obtain ⟨_, _, _, rfl⟩ := h
  obtain ⟨isFinal, status, data, rfl⟩ := k
  refine ⟨isFinal, status, data, ?_⟩
  simp [State.acceptGroup, State.setResponse, BitVec.ofNat_add, BitVec.add_assoc]

/-- Rule R110: the stream takes the groups of its bytes one after the other. -/
theorem issueAll_eblkRequests {s : State} {d : List Byte} (h : TakesBytes s d) :
    ∃ rs t, issueAll ((groupsOf 5 d.length d).map eblkRequest) s = some (rs, t) ∧
      List.Forall₂ EncodesGroup (groupsOf 5 d.length d) rs ∧ HasAccepted s d.length t := by
  induction d using drop_induction (k := 5) (by decide) generalizing s with
  | nil => exact ⟨[], s, rfl, .nil, hasAccepted_zero s⟩
  | group d hd ih =>
    obtain ⟨rs, t, hrun, hrs, ht⟩ := ih (h.rest (packBytes (d.take 5)))
    refine ⟨(encodeGroup (d.take 5).length (packBytes (d.take 5)) s).response :: rs, t, ?_, ?_, ?_⟩
    · rw [groupsOf_step (by decide) hd, List.map_cons, issueAll_cons (h.issue_first hd), hrun]
      rfl
    · rw [groupsOf_step (by decide) hd]
      exact .cons (encodeGroup_encodesGroup _ s) hrs
    · have hsum : (d.take 5).length + (d.drop 5).length = d.length := by
        rw [List.length_take, List.length_drop]
        omega
      exact hsum ▸ (hasAccepted_encodeGroup _ _ s).trans ht

/-! ### What the host gathers (rules R79 and R207) -/

/-- Only group commands report kept lanes. -/
theorem keptLanes_of_kcnt_zero {base t : State} {code : Code} {ebyte : Byte} {len64 : Bool} {data : Word}
    (h : Answered base t code 0 ebyte len64 data) : t.response.keptLanes = [] := by
  rw [Response.keptLanes, State.response, h.kcnt, List.take_zero]

section Gathered

variable {gs : List (List Byte)} {rs : List Response} (h : List.Forall₂ EncodesGroup gs rs)
include h

theorem code_of_encodesGroups : ∀ r ∈ rs, statusCode r.rstat = codeBits .ok := by
  induction h with
  | nil => simp
  | cons hr _ ih => exact List.forall_mem_cons.mpr ⟨hr.code, ih⟩

theorem flatMap_keptLanes_of_encodesGroups : rs.flatMap Response.keptLanes =
    gs.flatMap fun g => (lanesOf (encBlock (packBytes g) g.length).1).take (kEnc g.length) := by
  induction h with
  | nil => rfl
  | cons hr _ ih => rw [List.flatMap_cons, List.flatMap_cons, ih, Response.keptLanes, hr.kcnt, hr.rdata]

theorem flatMap_lanes_of_encodesGroups : (rs.flatMap fun r => lanesOf r.rdata) =
    gs.flatMap fun g => lanesOf (encBlock (packBytes g) g.length).1 := by
  induction h with
  | nil => rfl
  | cons hr _ ih => rw [List.flatMap_cons, List.flatMap_cons, ih, hr.rdata]

end Gathered

/-! ### FIN of an encode stream (rule R150) -/

theorem exec_fin_enc {s : State} (hf : s.fault = false) (hm : s.mode = .enc) :
    exec .fin s = .next (finishEncode s) := by
  rw [exec, execFin, unlessFaulted_of_no_fault hf, hm]

theorem finishEncode_answered (s : State) : Answered (s.setStream .idle) (finishEncode s) .ok 0 0
    (lengthBit64 (encodedLen s.pos.toNat)) (lengthLow (encodedLen s.pos.toNat)) :=
  respond_answered _ _ _ _ _ (by decide)

theorem finishEncode_length (s : State) :
    (finishEncode s).rdata.toNat + 2 ^ 64 * (statusLen64 (finishEncode s).rstat).toNat = encodedLen s.pos.toNat := by
  rw [(finishEncode_answered s).rdata, (finishEncode_answered s).len64]
  exact length_rejoins _ (encodedLen_lt s.pos)

/-! ### The whole expansion of `encode` (rule R79) -/

theorem issueAll_single {q : Request} {i : Instr} {s t : State} (hq : decodeRequest q = .ok i)
    (h : exec i s = .next t) : issueAll [q] s = some ([t.response], t) :=
  issueAll_cons ((runRequest_of_ok hq s).trans h)

/-- SENC opens the stream, the groups are taken in order, and FIN closes the stream they leave. -/
theorem issueAll_expandEncode {s : State} (hf : s.fault = false) {d : List Byte} (hd : d.length ≤ Config.posMax) :
    ∃ rs t, issueAll (expandEncode d) s =
        some ((openEncode s).response :: (rs ++ [(finishEncode t).response]), finishEncode t) ∧
      List.Forall₂ EncodesGroup (groupsOf 5 d.length d) rs ∧ HasAccepted (openEncode s) d.length t := by
  have htakes : TakesBytes (openEncode s) d := ⟨hf, rfl, fun _ => rfl, (Nat.zero_add _).trans_le hd⟩
  obtain ⟨rs, t, hrun, hrs, ht⟩ := issueAll_eblkRequests htakes
  have hfin : issueAll [encode .fin] t = some ([(finishEncode t).response], finishEncode t) := by
    obtain ⟨_, _, _, rfl⟩ := ht
    exact issueAll_single (decodeOfEncode .fin rfl) (exec_fin_enc hf rfl)
  have hsenc : issueAll [encode .senc] s = some ([(openEncode s).response], openEncode s) :=
    issueAll_single (decodeOfEncode .senc rfl) (exec_senc hf)
  exact ⟨rs, t, issueAll_append [_] _ hsenc (issueAll_append _ _ hrun hfin), hrs, ht⟩

/-! ### The statements -/

/-- Settles O55: the run gives one response per group, and the blocks of the groups are the symbols of the bit string,
eight for five bytes, with '0' past the last bit. -/
theorem encodeStreamIsTheCanonicalEncoding : Obligations.EncodeStreamIsTheCanonicalEncoding := by
  intro d s hf hd
  obtain ⟨rs, t, hrun, hrs, ht⟩ := issueAll_expandEncode hf hd
  have hopen := openEncode_answered s
  have hclose := finishEncode_answered t
  have hpos : t.pos.toNat = d.length := by
    obtain ⟨_, _, _, rfl⟩ := ht
    exact (toNat_add_of_le_posMax ((Nat.zero_add _).trans_le hd)).trans (Nat.zero_add _)
  refine ⟨_, _, hrun, ?_, ?_, ?_, ?_, ?_, ?_, ?_⟩
  · have hlen := hrs.length_eq
    rw [groupsOf_length (by decide) rfl] at hlen
    rw [List.length_cons, List.length_append, ← hlen]
    rfl
  · simp only [List.forall_mem_cons, List.forall_mem_append]
    exact ⟨hopen.code, code_of_encodesGroups hrs, hclose.code, List.forall_mem_nil _⟩
  · simp only [gatherKept, List.flatMap_cons, List.flatMap_append, List.flatMap_nil, keptLanes_of_kcnt_zero hopen,
      keptLanes_of_kcnt_zero hclose, List.nil_append, List.append_nil]
    rw [flatMap_keptLanes_of_encodesGroups hrs, flatMap_kept_groups]
  · rw [canonicalSymbols_eq, List.length_map, List.length_range]
  · rw [gatherAll, List.tail_cons, List.dropLast_concat, flatMap_lanes_of_encodesGroups hrs, flatMap_lanes_groups,
      map_symbolAt_bufferLen]
  · rw [finishEncode_length, hpos]
  · obtain ⟨_, _, _, rfl⟩ := ht
    rfl

/-- Settles O20, from the value of the group and the fields as its digits. -/
theorem encoderBlockContents : Obligations.EncoderBlockContents := by
  intro din r _ h5 b hb G hG
  have hgroup : (group40 din r).toNat = G := by
    rw [group40_toNat, hG]
    simp only [groupByte_toNat, hb]
    rfl
  refine ⟨hgroup, ?_, fun j => ?_, kEnc_eq_getD r h5⟩
  · rw [leftJustified_toNat, hgroup]
  · rw [lane_encBlock]
    congr 1
    apply BitVec.eq_of_toNat_eq
    rw [fieldIdx_leftJustified_toNat, hgroup, BitVec.toNat_ofNat]

/-- Settles O21: each field is a slice of the group, which lies in one byte or across the seam of two. -/
theorem bitExtractionTable : Obligations.BitExtractionTable := by
  intro b0 b1 b2 b3 b4 G hG W hW
  subst hW
  refine ⟨fun j => ⟨fieldIdx_toNat _ j, fieldIdx_eq_extract _ j, fieldIdx_leftJustified G j⟩, ?_, ?_, ?_, ?_, ?_, ?_, ?_,
    ?_, fields_cover G⟩
  all_goals rw [fieldIdx_leftJustified, hG]
  · iterate 4 rw [extract_append_high _ _ _ _ (by decide)]
    rfl
  · iterate 3 rw [extract_append_high _ _ _ _ (by decide)]
    exact extract_append_seam (a := 3) (b := 2) b0 b1 rfl
  · iterate 3 rw [extract_append_high _ _ _ _ (by decide)]
    exact extract_append_low _ b1 1 5 (by decide)
  · iterate 2 rw [extract_append_high _ _ _ _ (by decide)]
    refine (extract_append_seam (a := 1) (b := 4) _ b2 rfl).trans ?_
    rw [extract_append_low _ b1 0 1 (by decide)]
  · rw [extract_append_high _ _ _ _ (by decide)]
    refine (extract_append_seam (a := 4) (b := 1) _ b3 rfl).trans ?_
    rw [extract_append_low _ b2 0 4 (by decide)]
  · rw [extract_append_high _ _ _ _ (by decide)]
    exact extract_append_low _ b3 2 5 (by decide)
  · refine (extract_append_seam (a := 2) (b := 3) _ b4 rfl).trans ?_
    rw [extract_append_low _ b3 0 2 (by decide)]
  · exact extract_append_low _ b4 0 5 (by decide)

/-- Settles O22: the significant symbols are just enough for the bytes, so the bits past the bytes are the padding lanes
and the end of the last significant field. -/
theorem paddingSymbolsAreZero : Obligations.PaddingSymbolsAreZero := by
  intro din r h1 h5
  have hk := kEnc_eq_ceilDiv r h5.le
  unfold ceilDiv at hk
  refine ⟨fun j hj => ?_, fun j hj => ?_⟩
  · rw [lane_encBlock, field_eq_zero din h5.le (by omega)]
    rfl
  · have hz : [0, 2, 4, 1, 3].getD r 0 = 5 * kEnc r - 8 * r := by
      clear hk hj
      revert r; decide
    rw [hz]
    exact field_mod_eq_zero din h5.le j (by omega) (by omega)

/-- Settles O23: an EBLK that responds OK has put the block in RDATA. -/
theorem encoderOutputIsInTheAlphabet : Obligations.EncoderOutputIsInTheAlphabet := by
  intro cnt din s t h hok j
  rw [eq_encodeGroup_of_ok h hok]
  exact ⟨_, lane_encBlock din cnt.toNat j⟩

/-- Settles O25: the state that a group command leaves with OK is written out, and its RDATA, KCNT and FINAL name the
operand and the count only. -/
theorem groupsCarryNothing : Obligations.GroupsCarryNothing := by
  rintro i s s' t t' (⟨cnt, din, rfl⟩ | ⟨cnt, din, rfl⟩) h h' hok hok'
  · rw [eq_encodeGroup_of_ok h hok, eq_encodeGroup_of_ok h' hok']
    exact ⟨rfl, (statusKcnt_packStatus ..).trans (statusKcnt_packStatus ..).symm, rfl⟩
  · rw [eq_deliverGroup_of_ok h hok, eq_deliverGroup_of_ok h' hok']
    exact ⟨rfl, (statusKcnt_packStatus ..).trans (statusKcnt_packStatus ..).symm, rfl⟩

/-- Settles O26: SENC asks for no MODE, and its next state is written out. -/
theorem sencOpensAnEncodeStream : Obligations.SencOpensAnEncodeStream :=
  ⟨fun _ => rfl, fun c din hc => decodeCmd_eq_error_of_zero (decodeCmd_senc_illegal c hc) din,
    fun s hf => ⟨_, exec_senc hf, openEncode_answered s, (openEncode_answered s).mode, (openEncode_answered s).final,
      (openEncode_answered s).err, rfl⟩,
    fun _ hf => exec_answers_faulted hf .senc, _, exec_senc rfl, by decide, rfl⟩

/-- Settles O27, check by check in the order of the command. -/
theorem eblkEncodesOneGroup : Obligations.EblkEncodesOneGroup := by
  obtain ⟨-, hdecode, -⟩ := commandMapIsComplete
  refine ⟨hdecode, fun r din s hf => exec_answers_faulted hf (.eblk r din),
    fun r din s hf hc => ⟨_, exec_eblk_badCount hf din hc, raiseFault_answered ..⟩,
    fun r din s hf h1 h5 hm => ⟨_, exec_eblk_seqErr hf din ⟨h1, h5⟩ hm, raiseFault_answered ..⟩,
    fun r din s hf h1 h5 hm hfin ho => ⟨_, exec_eblk_posOvf hf din ⟨h1, h5⟩ hm hfin ho, raiseFault_answered ..⟩,
    fun r din s hf h1 h5 hm hfin ho => ⟨_, exec_eblk_ok hf din ⟨h1, h5⟩ hm hfin ho, encodeGroup_answered ..,
      toNat_add_of_le_posMax ho, rfl⟩,
    by decide, by decide, by decide, fun d e r _ _ h => encBlock_congr h, ?_⟩
  rintro s rfl
  exact ⟨_, exec_eblk_ok rfl _ (by decide) rfl rfl (by decide), by decide⟩

end Sys2Proof.Machine

/-! ## The decoder: the statements on 42_decoder.md

The scan is the search for the least lane without an index. The assembled bytes and the eight indices are one 40-bit
string, so what a group, and then a stream, decodes to is said of bit strings: a byte sequence is the decoding of some
indices when its bits start theirs and it has the decoded length. A stream is an induction over its groups of eight
symbols, with one lemma for a text of alphabet symbols and one for a text with an invalid one. -/

namespace Sys2Proof.Machine

/-! ### The scan of a group (rules R121 and R122) -/

theorem laneIdx_of_lt {r : Nat} {j : Fin 8} (h : j.val < r) (din : Word) : laneIdx din r j = inv (lane din j) :=
  if_pos h

theorem laneIdx_of_le {r : Nat} {j : Fin 8} (h : r ≤ j.val) (din : Word) : laneIdx din r j = some 0 :=
  if_neg (Nat.not_lt.mpr h)

/-- A lane without an index lies below the count: the filler is valid. -/
theorem isNone_laneIdx_iff {din : Word} {r : Nat} {j : Fin 8} :
    (laneIdx din r j).isNone = true ↔ j.val < r ∧ inv (lane din j) = none := by
  obtain hj | hj := Nat.lt_or_ge j.val r
  · simp [laneIdx_of_lt hj, hj]
  · simp [laneIdx_of_le hj, Nat.not_lt.mpr hj]

/-- The scan is the library's search for the least lane. -/
theorem firstInvalid_eq_find (din : Word) (r : Nat) :
    firstInvalid din r = Fin.find? fun j : Fin 8 => (laneIdx din r j).isNone :=
  (Fin.find?_eq_find?_finRange).symm

theorem firstInvalid_eq_none_iff {din : Word} {r : Nat} :
    firstInvalid din r = none ↔ ∀ j : Fin 8, j.val < r → inv (lane din j) ≠ none := by
  simp only [firstInvalid_eq_find, Fin.find?_eq_none_iff, ← Bool.not_eq_true, isNone_laneIdx_iff, not_and, ne_eq]

theorem firstInvalid_eq_some_iff {din : Word} {r : Nat} {e : Fin 8} :
    firstInvalid din r = some e ↔
      e.val < r ∧ inv (lane din e) = none ∧ ∀ j : Fin 8, j < e → inv (lane din j) ≠ none := by
  simp only [firstInvalid_eq_find, Fin.find?_eq_some_iff, ← Bool.not_eq_true, isNone_laneIdx_iff, not_and, and_assoc]
  refine and_congr_right fun he => and_congr_right fun _ => forall₂_congr fun j hj => ?_
  exact forall_prop_of_true (Nat.lt_trans hj he)

/-- Rule R122 of the decoder function: the error names the least invalid lane and its byte. -/
theorem decBlock_eq_err_iff {din : Word} {r : Nat} {e : Fin 8} {c : Byte} :
    decBlock din r = .err e c ↔ firstInvalid din r = some e ∧ c = lane din e := by
  unfold decBlock
  cases firstInvalid din r with
  | none => simp
  | some k =>
    rw [DecResult.err.injEq, Option.some.injEq]
    exact and_congr_right fun hk => by rw [hk, eq_comm]

theorem decBlock_eq_ok_iff {din : Word} {r : Nat} {out : Word} {k : Nat} :
    decBlock din r = .ok out k ↔
      firstInvalid din r = none ∧ keptWord (validIdx din r) (kDec r) = out ∧ kDec r = k := by
  unfold decBlock
  cases firstInvalid din r <;> simp

/-- A group whose lanes hold the indices `x`, the filler included. -/
theorem decBlock_of_indices {din : Word} {r : Nat} {x : Fin 8 → Idx} (h : ∀ j, laneIdx din r j = some (x j)) :
    decBlock din r = .ok (keptWord x (kDec r)) (kDec r) := by
  refine decBlock_eq_ok_iff.mpr ⟨firstInvalid_eq_none_iff.mpr fun j hj hnone => ?_, ?_, rfl⟩
  · rw [← laneIdx_of_lt hj, h j] at hnone
    cases hnone
  · congr 1
    funext j
    rw [validIdx, h j, Option.getD_some]

/-! ### The assembled bytes (rules R124 and R125) -/

theorem wide_toNat (v : Idx) : (wide v).toNat = v.toNat := BitVec.toNat_setWidth_of_le (by decide)

theorem wide_shiftLeft_toNat (v : Idx) {k : Nat} (h : k ≤ 11) : (wide v <<< k).toNat = v.toNat <<< k := by
  have hlt : v.toNat <<< k < 2 ^ 16 := by
    rw [Nat.shiftLeft_eq]
    calc v.toNat * 2 ^ k < 2 ^ 5 * 2 ^ k := Nat.mul_lt_mul_of_pos_right v.isLt (Nat.two_pow_pos k)
      _ = 2 ^ (5 + k) := (Nat.pow_add 2 5 k).symm
      _ ≤ 2 ^ 16 := Nat.pow_le_pow_right (by decide) (by omega)
  rw [BitVec.toNat_shiftLeft, wide_toNat, Nat.mod_eq_of_lt hlt]

theorem wide_shiftRight_toNat (v : Idx) (k : Nat) : (wide v >>> k).toNat = v.toNat >>> k := by
  rw [BitVec.toNat_ushiftRight, wide_toNat]

/-- G' of rule R125: the eight indices, the first one most significant. -/
def indices40 (x : Fin 8 → Idx) : BitVec 40 := x 0 ++ x 1 ++ x 2 ++ x 3 ++ x 4 ++ x 5 ++ x 6 ++ x 7

/-- Rule R125, bit by bit: each bit of a byte is one bit of one index. -/
theorem assembledByte_eq_extract (x : Fin 8 → Idx) {i : Fin 8} (h : i.val < 5) :
    assembledByte x i = (indices40 x).extractLsb' (32 - 8 * i.val) 8 := by
  apply BitVec.eq_of_getLsbD_eq
  intro n hn
  match i, h with
  | 0, _ | 1, _ | 2, _ | 3, _ | 4, _ =>
    simp only [assembledByte, wide, indices40, BitVec.getLsbD_append, BitVec.getLsbD_extractLsb']
    interval_cases n <;> simp

/-- The five bytes in order are the whole of the eight indices. -/
theorem assembledBytes_cover (x : Fin 8 → Idx) :
    assembledByte x 0 ++ assembledByte x 1 ++ assembledByte x 2 ++ assembledByte x 3 ++ assembledByte x 4
      = indices40 x := by
  iterate 5 rw [assembledByte_eq_extract x (by decide)]
  iterate 4 rw [BitVec.extractLsb'_append_extractLsb'_eq_extractLsb' (by decide)]
  exact extract_all _

/-! ### Bit strings of indices and bytes (log entry 16) -/

theorem bitsOf_indices40 (x : Fin 8 → Idx) : bitsOf (indices40 x) = (laneNumbers.map x).flatMap bitsOf := by
  have hsplit (v0 v1 v2 v3 v4 v5 v6 v7 : Idx) : bitsOf (v0 ++ v1 ++ v2 ++ v3 ++ v4 ++ v5 ++ v6 ++ v7) =
      bitsOf v0 ++ bitsOf v1 ++ bitsOf v2 ++ bitsOf v3 ++ bitsOf v4 ++ bitsOf v5 ++ bitsOf v6 ++ bitsOf v7 := by
    rw [bitsOf_append (n := 35), bitsOf_append (n := 30), bitsOf_append (n := 25), bitsOf_append (n := 20),
      bitsOf_append (n := 15), bitsOf_append (n := 10), bitsOf_append]
  simp [indices40, laneNumbers, hsplit]

/-- The assembled bytes and the indices are one bit string. -/
theorem flatMap_bitsOf_assembledBytes (x : Fin 8 → Idx) :
    ([0, 1, 2, 3, 4].map (assembledByte x)).flatMap bitsOf = (laneNumbers.map x).flatMap bitsOf := by
  have hsplit (b0 b1 b2 b3 b4 : Byte) : bitsOf (b0 ++ b1 ++ b2 ++ b3 ++ b4) =
      bitsOf b0 ++ bitsOf b1 ++ bitsOf b2 ++ bitsOf b3 ++ bitsOf b4 := by
    rw [bitsOf_append (n := 32), bitsOf_append (n := 24), bitsOf_append (n := 16), bitsOf_append]
  rw [← bitsOf_indices40, ← assembledBytes_cover, hsplit]
  simp

/-- The bits of the first n indices. -/
theorem take_flatMap_bitsOf_idx (xs : List Idx) (n : Nat) :
    (xs.flatMap bitsOf).take (5 * n) = (xs.take n).flatMap bitsOf := by
  induction xs generalizing n with
  | nil => simp
  | cons v xs ih =>
    cases n with
    | zero => rfl
    | succ n =>
      rw [Nat.mul_succ, Nat.add_comm, List.flatMap_cons, List.take_append, bitsOf_length, Nat.add_sub_cancel_left, ih,
        List.take_of_length_le (by simp), List.take_succ_cons, List.flatMap_cons]

theorem mem_take_laneNumbers : ∀ r ≤ 8, ∀ j : Fin 8, j ∈ laneNumbers.take r ↔ j.val < r := by decide

theorem eight_mul_kDec_le (r : Nat) : 8 * kDec r ≤ 5 * r := by
  unfold kDec
  split <;> omega

/-- The kept bytes of a group are the first whole octets of its indices below the count (rule R128). -/
theorem flatMap_bitsOf_keptBytes (x : Fin 8 → Idx) {r : Nat} (hr : r ≤ 8) :
    ((laneNumbers.take (kDec r)).map (assembledByte x)).flatMap bitsOf =
      (((laneNumbers.take r).map x).flatMap bitsOf).take (8 * kDec r) := by
  have hfive : laneNumbers.take (kDec r) = [0, 1, 2, 3, 4].take (kDec r) :=
    (List.take_take.trans (by rw [Nat.min_eq_left (kDec_le hr)])).symm
  rw [hfive, List.map_take, List.map_take, ← take_flatMap_bitsOf, ← take_flatMap_bitsOf_idx, List.take_take,
    Nat.min_eq_left (eight_mul_kDec_le r), flatMap_bitsOf_assembledBytes]

theorem byteOfBits_bitsOf : ∀ b : Byte, byteOfBits (bitsOf b) = b := by decide

/-- Cutting a bit string that starts with the bits of a byte sequence gives the bytes back. -/
theorem octets_of_leading_bits {bs : List Byte} {bits : List Bool} (h : bs.flatMap bitsOf <+: bits) :
    ((groupsOf 8 bits.length bits).take bs.length).map byteOfBits = bs := by
  obtain ⟨tail, rfl⟩ := h
  induction bs with
  | nil => rfl
  | cons b bs ih =>
    have hcons : (b :: bs).flatMap bitsOf ++ tail = bitsOf b ++ (bs.flatMap bitsOf ++ tail) := by simp
    have hne : bitsOf b ++ (bs.flatMap bitsOf ++ tail) ≠ [] :=
      List.append_ne_nil_of_left_ne_nil (List.ne_nil_of_length_pos (by simp)) _
    rw [hcons, groupsOf_step (by decide) hne, List.take_left' (bitsOf_length b), List.drop_left' (bitsOf_length b),
      List.length_cons, List.take_succ_cons, List.map_cons, ih, byteOfBits_bitsOf]

theorem eq_of_flatMap_bitsOf_eq {bs cs : List Byte} (h : bs.flatMap bitsOf = cs.flatMap bitsOf) : bs = cs := by
  have hlen : bs.length = cs.length := by
    have hbits := congrArg List.length h
    rw [flatMap_bitsOf_length, flatMap_bitsOf_length] at hbits
    omega
  have hoctets (l : List Byte) := octets_of_leading_bits (bs := l) ⟨[], List.append_nil _⟩
  rw [← hoctets bs, hlen, h, hoctets]

/-- Indices that agree below the count assemble to the same kept bytes (rule R128). -/
theorem assembledByte_congr {r : Nat} (hr : r ≤ 8) {x y : Fin 8 → Idx} (h : ∀ j : Fin 8, j.val < r → x j = y j)
    {i : Fin 8} (hi : i.val < kDec r) : assembledByte x i = assembledByte y i := by
  have hbelow : (laneNumbers.take r).map x = (laneNumbers.take r).map y :=
    List.map_congr_left fun j hj => h j ((mem_take_laneNumbers r hr j).mp hj)
  have hkept : (laneNumbers.take (kDec r)).map (assembledByte x) = (laneNumbers.take (kDec r)).map (assembledByte y) :=
    eq_of_flatMap_bitsOf_eq (by rw [flatMap_bitsOf_keptBytes x hr, flatMap_bitsOf_keptBytes y hr, hbelow])
  exact List.map_inj_left.mp hkept i ((mem_take_laneNumbers _ ((kDec_le hr).trans (by decide)) i).mpr hi)

/-! ### The output word (rule R126) -/

theorem kDec_eq_getD : ∀ r ≤ 8, kDec r = [0, 0, 1, 1, 2, 3, 3, 4, 5].getD r 0 := by decide

@[simp] theorem lane_keptWord (x : Fin 8 → Idx) (k : Nat) (i : Fin 8) :
    lane (keptWord x k) i = if i.val < k then assembledByte x i else 0 := lane_packLanes _ i

theorem lanes_low (w : Word) : lane w 5 ++ lane w 6 ++ lane w 7 = w.extractLsb' 0 24 := by
  unfold lane
  iterate 2 rw [BitVec.extractLsb'_append_extractLsb'_eq_extractLsb' (by decide)]
  rfl

/-- No byte is kept in lanes 5 to 7. -/
theorem keptWord_low (x : Fin 8 → Idx) {k : Nat} (hk : k ≤ 5) : (keptWord x k).extractLsb' 0 24 = 0 := by
  have hzero (j : Fin 8) (hj : 5 ≤ j.val) : lane (keptWord x k) j = 0 := by
    rw [lane_keptWord, if_neg (by omega)]
  rw [← lanes_low, hzero 5 (by decide), hzero 6 (by decide), hzero 7 (by decide)]
  rfl

/-! ### The round trip of one group (rules R125 and R138) -/

/-- The padding symbols of a partial group are the filler, so the decoder sees all eight fields of the encoder. -/
theorem decBlock_encBlock (din : Word) {r m : Nat} (hr : r ≤ 5) (hm : 8 * r ≤ 5 * m) :
    decBlock (encBlock din r).1 m =
      .ok (keptWord (fieldIdx (leftJustified (group40 din r))) (kDec m)) (kDec m) := by
  refine decBlock_of_indices fun j => ?_
  obtain hj | hj := Nat.lt_or_ge j.val m
  · rw [laneIdx_of_lt hj, lane_encBlock, inv_alpha]
  · rw [laneIdx_of_le hj, field_eq_zero din hr (by omega)]

/-- Assembling the fields of a group gives its bytes back. -/
theorem assembledByte_fields (din : Word) (r : Nat) {i : Fin 8} (hi : i.val < 5) :
    assembledByte (fieldIdx (leftJustified (group40 din r))) i = groupByte din r i := by
  have hmem : ∀ i : Fin 8, i.val < 5 → i ∈ ([0, 1, 2, 3, 4] : List (Fin 8)) := by decide
  refine List.map_inj_left.mp (eq_of_flatMap_bitsOf_eq ?_) i (hmem i hi)
  rw [flatMap_bitsOf_assembledBytes, ← bitsOf_indices40, ← bitsOf_group40]
  exact congrArg bitsOf (fields_cover _)

theorem keptWord_fields (din : Word) {r k : Nat} (hr : r ≤ k) (hk : k ≤ 5) :
    keptWord (fieldIdx (leftJustified (group40 din r))) k = packLanes (groupByte din r) := by
  refine word_ext fun i => ?_
  rw [lane_keptWord, lane_packLanes]
  split
  next hi => exact assembledByte_fields din r (by omega)
  next hi => exact (if_neg (by omega)).symm

theorem kDec_kEnc : ∀ r ≤ 5, kDec (kEnc r) = r := by decide

/-! ### The commands SDEC and DBLK (rules R129 to R133) -/

/-- SDEC's next state: a decode stream is open. -/
def openDecode (s : State) : State := respond .ok 0 0 false 0 (s.setStream .dec)

theorem openDecode_answered (s : State) : Answered (s.setStream .dec) (openDecode s) .ok 0 0 false 0 :=
  respond_answered _ _ _ _ _ (by decide)

section Commands

variable {s : State} (hf : s.fault = false)
include hf

theorem exec_sdec : exec .sdec s = .next (openDecode s) := unlessFaulted_of_no_fault hf _

variable {cnt : BitVec 4} (din : Word)

theorem exec_dblk_badCount (hc : cnt.toNat = 0 ∨ 8 < cnt.toNat) :
    exec (.dblk cnt din) s = .next (raiseFault .badCount s) := by
  have hcount : (!legalDecCount cnt) = true := by
    rw [legalDecCount, ← decide_not]
    exact decide_eq_true (by omega)
  rw [exec, execDblk, unlessFaulted_of_no_fault hf, if_pos hcount]

variable (hc : 1 ≤ cnt.toNat ∧ cnt.toNat ≤ 8)
include hc

theorem exec_dblk_of_legal : exec (.dblk cnt din) s =
    if s.mode ≠ .dec ∨ s.final = true then .next (raiseFault .seqErr s)
    else if s.err then .next (reportStoredError s)
    else if overflows s cnt.toNat then .next (raiseFault .posOvf s)
    else .next (decodeGroup cnt.toNat din s) := by
  have hcount : legalDecCount cnt = true := decide_eq_true hc
  rw [exec, execDblk, unlessFaulted_of_no_fault hf, hcount]
  rfl

theorem exec_dblk_seqErr (hm : s.mode ≠ .dec ∨ s.final = true) :
    exec (.dblk cnt din) s = .next (raiseFault .seqErr s) :=
  (exec_dblk_of_legal hf din hc).trans (if_pos hm)

variable (hm : s.mode = .dec) (hfin : s.final = false)
include hm hfin

theorem exec_dblk_stored (he : s.err = true) : exec (.dblk cnt din) s = .next (reportStoredError s) := by
  rw [exec_dblk_of_legal hf din hc, if_neg (by simp [hm, hfin]), if_pos he]

variable (he : s.err = false)
include he

theorem exec_dblk_posOvf (ho : Config.posMax < s.pos.toNat + cnt.toNat) :
    exec (.dblk cnt din) s = .next (raiseFault .posOvf s) := by
  rw [exec_dblk_of_legal hf din hc, if_neg (by simp [hm, hfin]), if_neg (by simp [he]),
    if_pos (by simpa [overflows] using ho)]

theorem exec_dblk_scan (ho : s.pos.toNat + cnt.toNat ≤ Config.posMax) :
    exec (.dblk cnt din) s = .next (decodeGroup cnt.toNat din s) := by
  rw [exec_dblk_of_legal hf din hc, if_neg (by simp [hm, hfin]), if_neg (by simp [he]),
    if_neg (by simpa [overflows] using ho)]

end Commands

theorem decodeGroup_of_err {r : Nat} {din : Word} {e : Fin 8} {c : Byte} (h : decBlock din r = .err e c) (s : State) :
    decodeGroup r din s = rejectGroup e c s := by
  rw [decodeGroup, h]

theorem decodeGroup_of_ok {r : Nat} {din out : Word} {k : Nat} (h : decBlock din r = .ok out k) (s : State) :
    decodeGroup r din s = deliverGroup r out k s := by
  rw [decodeGroup, h]

theorem reportStoredError_answered (s : State) :
    Answered s (reportStoredError s) .invalidInput 0 s.ebyte false s.epos :=
  respond_answered _ _ _ _ _ (by decide)

theorem rejectGroup_answered (e : Fin 8) (c : Byte) (s : State) :
    Answered (s.setError (s.pos + BitVec.ofNat 64 e.val) c) (rejectGroup e c s) .invalidInput 0 c false
      (s.pos + BitVec.ofNat 64 e.val) :=
  respond_answered _ _ _ _ _ (by decide)

theorem deliverGroup_answered (r : Nat) (out : Word) {k : Nat} (hk : k ≤ 5) (s : State) :
    Answered (s.acceptGroup r (decide (r < 8))) (deliverGroup r out k s) .ok k 0 false out :=
  respond_answered _ _ _ _ _ (by omega)

theorem decodeCmd_sdec_illegal : ∀ c : BitVec 4, c ≠ 0 →
    decodeCmd (0x20 ||| c.setWidth 8) 0 = .error .illegalCmd := by decide

/-! ### A group of a text (rules R78, R121 and R122) -/

theorem lane_packBytes (g : List Byte) (j : Fin 8) : lane (packBytes g) j = g.getD j.val 0 := lane_packLanes _ j

/-- A text without an invalid symbol is spelled by indices. -/
theorem exists_indices_of_valid {m : List Byte} (h : firstInvalidSymbol m = none) :
    ∃ xs : List Idx, xs.map alpha = m := by
  rw [firstInvalidSymbol, List.findIdx?_eq_none_iff] at h
  have hmem : m ∈ {l : List Byte | ∀ c ∈ l, c ∈ Set.range alpha} := fun c hc => by
    obtain ⟨v, hv⟩ := Option.isSome_iff_exists.mp (Option.isNone_eq_false_iff.mp (h c hc))
    exact ⟨v, (inv_eq_some_iff c v).mp hv⟩
  rwa [← Set.range_list_map] at hmem

theorem firstInvalidSymbol_append (m n : List Byte) :
    firstInvalidSymbol (m ++ n) = (firstInvalidSymbol m).or ((firstInvalidSymbol n).map (· + m.length)) :=
  List.findIdx?_append

theorem decBlock_packBytes_indices (xs : List Idx) :
    decBlock (packBytes (xs.map alpha)) xs.length =
      .ok (keptWord (fun j => xs.getD j.val 0) (kDec xs.length)) (kDec xs.length) := by
  refine decBlock_of_indices fun j => ?_
  obtain hj | hj := Nat.lt_or_ge j.val xs.length
  · rw [laneIdx_of_lt hj, lane_packBytes]
    simp [hj]
  · rw [laneIdx_of_le hj, List.getD_eq_default _ _ hj]

theorem decBlock_packBytes_invalid {g : List Byte} (hg : g.length ≤ 8) {p : Nat} (h : firstInvalidSymbol g = some p) :
    ∃ (e : Fin 8) (c : Byte), e.val = p ∧ g[p]? = some c ∧ decBlock (packBytes g) g.length = .err e c := by
  rw [firstInvalidSymbol, List.findIdx?_eq_some_iff_getElem] at h
  obtain ⟨hp, hinv, hleast⟩ := h
  have hlane (j : Fin 8) (hj : j.val < g.length) : lane (packBytes g) j = g[j.val] := by
    rw [lane_packBytes, List.getD_eq_getElem _ _ hj]
  refine ⟨⟨p, by omega⟩, g[p], rfl, List.getElem?_eq_getElem hp, ?_⟩
  rw [decBlock_eq_err_iff, firstInvalid_eq_some_iff, hlane _ hp]
  refine ⟨⟨hp, Option.isNone_iff_eq_none.mp hinv, fun j hj hnone => hleast j hj ?_⟩, rfl⟩
  rw [← hlane j (Nat.lt_trans hj hp), hnone]
  rfl

/-! ### The bytes of a text of valid symbols (rule R137) -/

/-- `bs` is what the symbols of the indices `xs` decode to: the whole octets of their bit string. -/
structure IsDecodingOf (xs : List Idx) (bs : List Byte) : Prop where
  length : bs.length = decodedLen xs.length
  bits : bs.flatMap bitsOf <+: xs.flatMap bitsOf

theorem flatMap_bitsOf_idx_length (xs : List Idx) : (xs.flatMap bitsOf).length = 5 * xs.length := by
  simp [List.length_flatMap, Nat.mul_comm]

theorem filterMap_inv_map_alpha (xs : List Idx) : (xs.map alpha).filterMap inv = xs := by
  rw [List.filterMap_map]
  exact (List.filterMap_congr fun v _ => inv_alpha v).trans List.filterMap_some

theorem IsDecodingOf.eq_canonicalBytes {xs : List Idx} {bs : List Byte} (h : IsDecodingOf xs bs) :
    bs = canonicalBytes (xs.map alpha) := by
  simp only [canonicalBytes, filterMap_inv_map_alpha, List.length_map, ← h.length]
  exact (octets_of_leading_bits h.bits).symm

theorem isDecodingOf_nil : IsDecodingOf [] [] := ⟨rfl, [], rfl⟩

/-- A full group is whole octets, so the bytes of the groups follow one another. -/
theorem IsDecodingOf.append_rest {xs : List Idx} {b bs : List Byte} (hfirst : IsDecodingOf (xs.take 8) b)
    (hrest : IsDecodingOf (xs.drop 8) bs) : IsDecodingOf xs (b ++ bs) := by
  have hlen := hfirst.length
  have hlen' := hrest.length
  unfold decodedLen at hlen hlen'
  rw [List.length_take] at hlen
  rw [List.length_drop] at hlen'
  refine ⟨by rw [List.length_append, hlen, hlen', decodedLen]; omega, ?_⟩
  rw [List.flatMap_append]
  obtain hlt | hge := Nat.lt_or_ge xs.length 8
  · have hnil : bs = [] := List.length_eq_zero_iff.mp (by omega)
    subst hnil
    simpa [List.take_of_length_le hlt.le] using hfirst.bits
  · have hwhole : b.flatMap bitsOf = (xs.take 8).flatMap bitsOf :=
      hfirst.bits.eq_of_length (by
        rw [flatMap_bitsOf_length, flatMap_bitsOf_idx_length, List.length_take]
        omega)
    rw [hwhole, ← List.take_append_drop 8 xs, List.flatMap_append]
    simpa using hrest.bits

/-! ### The response to one group of valid symbols (rule R132) -/

theorem keptLanes_deliverGroup (r : Nat) (x : Fin 8 → Idx) {k : Nat} (hk : k ≤ 5) (s : State) :
    (deliverGroup r (keptWord x k) k s).response.keptLanes = (laneNumbers.take k).map (assembledByte x) := by
  have h := deliverGroup_answered r (keptWord x k) hk s
  rw [Response.keptLanes, State.response, h.kcnt, h.rdata, lanesOf, ← List.map_take]
  refine List.map_congr_left fun i hi => ?_
  rw [lane_keptWord, if_pos ((mem_take_laneNumbers k (by omega) i).mp hi)]

theorem map_getD_laneNumbers {g : List Idx} (hg : g.length ≤ 8) :
    (laneNumbers.take g.length).map (fun j => g.getD j.val 0) = g := by
  match g, hg with
  | [], _ | [_], _ | [_, _], _ | [_, _, _], _ | [_, _, _, _], _ | [_, _, _, _, _], _ | [_, _, _, _, _, _], _
  | [_, _, _, _, _, _, _], _ | [_, _, _, _, _, _, _, _], _ => rfl

theorem kDec_eq_decodedLen : ∀ r ≤ 8, kDec r = decodedLen r := by decide

/-- The kept bytes of a group of indices are its decoding. -/
theorem isDecodingOf_group {g : List Idx} (hg : g.length ≤ 8) :
    IsDecodingOf g ((laneNumbers.take (kDec g.length)).map (assembledByte fun j => g.getD j.val 0)) where
  length := by
    rw [List.length_map, List.length_take_of_le ((kDec_le hg).trans (by decide)), kDec_eq_decodedLen _ hg]
  bits := by
    rw [flatMap_bitsOf_keptBytes _ hg, map_getD_laneNumbers hg]
    exact ⟨_, List.take_append_drop ..⟩

/-! ### A stream of DBLK commands -/

theorem issueAll_cons_of_run {q : Request} {qs : List Request} {s t u : State} {rs : List Response}
    (h : issue q s = .next t) (hrun : issueAll qs t = some (rs, u)) :
    issueAll (q :: qs) s = some (t.response :: rs, u) := by
  rw [issueAll_cons h, hrun]
  rfl

theorem toNat_ofNat_count {r : Nat} (h : r ≤ 8) : (BitVec.ofNat 4 r).toNat = r := by
  rw [BitVec.toNat_ofNat]
  omega

theorem issue_dblkRequest {g : List Byte} (hg : 1 ≤ g.length ∧ g.length ≤ 8) (s : State) :
    issue (dblkRequest g) s = exec (.dblk (BitVec.ofNat 4 g.length) (packBytes g)) s := by
  rw [← toNat_ofNat_count hg.2] at hg
  rw [issue_eq, dblkRequest, runRequest_of_ok (decodeOfEncode (.dblk _ _) (decide_eq_true hg))]

/-- An open decode stream without an error and with room for `n` symbols, which has taken no final group if there are
any. -/
structure TakesSymbols (s : State) (n : Nat) : Prop where
  fault : s.fault = false
  mode : s.mode = .dec
  err : s.err = false
  final : 0 < n → s.final = false
  room : s.pos.toNat + n ≤ Config.posMax

theorem TakesSymbols.issue_first {s : State} {m : List Byte} (h : TakesSymbols s m.length) (hm : m ≠ []) :
    issue (dblkRequest (m.take 8)) s = .next (decodeGroup (m.take 8).length (packBytes (m.take 8)) s) := by
  have hpos := List.length_pos_iff.mpr hm
  have htake := List.length_take (i := 8) (l := m)
  have hroom := h.room
  have hg : 1 ≤ (m.take 8).length ∧ (m.take 8).length ≤ 8 := by omega
  have hcnt := toNat_ofNat_count hg.2
  have hexec := exec_dblk_scan (cnt := BitVec.ofNat 4 (m.take 8).length) h.fault (packBytes (m.take 8))
    (hcnt.symm ▸ hg) h.mode (h.final hpos) h.err (by omega)
  rw [hcnt] at hexec
  exact (issue_dblkRequest hg s).trans hexec

/-- The first group is full if any symbol is left after it. -/
theorem TakesSymbols.rest {α : Type} {s : State} {l : List α} (h : TakesSymbols s l.length) (out : Word) (k : Nat) :
    TakesSymbols (deliverGroup (l.take 8).length out k s) (l.drop 8).length where
  fault := h.fault
  mode := h.mode
  err := h.err
  final hrest := by
    rw [List.length_drop] at hrest
    have hge : 8 ≤ l.length := by omega
    exact decide_eq_false (Nat.not_lt.mpr (List.length_take_of_le hge).ge)
  room := by
    have hroom := h.room
    have htake := List.length_take (i := 8) (l := l)
    have hpos : (deliverGroup (l.take 8).length out k s).pos.toNat = s.pos.toNat + (l.take 8).length :=
      toNat_add_of_le_posMax (by omega)
    rw [hpos, List.length_drop]
    omega

theorem hasAccepted_deliverGroup (r : Nat) (out : Word) (k : Nat) (s : State) :
    HasAccepted s r (deliverGroup r out k s) :=
  ⟨_, _, _, rfl⟩

/-- The state that DBLK leaves after the group of the indices `g`. -/
def deliverIndices (g : List Idx) (s : State) : State :=
  deliverGroup g.length (keptWord (fun j => g.getD j.val 0) (kDec g.length)) (kDec g.length) s

theorem TakesSymbols.issue_indices {s : State} {xs : List Idx} (h : TakesSymbols s xs.length) (hxs : xs ≠ []) :
    issue (dblkRequest ((xs.map alpha).take 8)) s = .next (deliverIndices (xs.take 8) s) := by
  have hissue := TakesSymbols.issue_first (m := xs.map alpha) (by rwa [List.length_map]) (by simpa using hxs)
  rw [← List.map_take, List.length_map, decodeGroup_of_ok (decBlock_packBytes_indices _)] at hissue
  rwa [← List.map_take]

theorem code_deliverIndices (g : List Idx) (s : State) :
    statusCode (deliverIndices g s).response.rstat = codeBits .ok := statusCode_packStatus ..

theorem isDecodingOf_deliverIndices {g : List Idx} (hg : g.length ≤ 8) (s : State) :
    IsDecodingOf g (deliverIndices g s).response.keptLanes := by
  rw [deliverIndices, keptLanes_deliverGroup _ _ (kDec_le hg)]
  exact isDecodingOf_group hg

/-- A stream of valid symbols: every group responds OK, and the kept bytes together are the decoding. -/
theorem issueAll_dblkRequests_of_indices {s : State} {xs : List Idx} (h : TakesSymbols s xs.length) :
    ∃ rs t, issueAll ((groupsOf 8 (xs.map alpha).length (xs.map alpha)).map dblkRequest) s = some (rs, t) ∧
      (∀ r ∈ rs, statusCode r.rstat = codeBits .ok) ∧ IsDecodingOf xs (gatherKept rs) ∧
      HasAccepted s xs.length t := by
  induction xs using drop_induction (k := 8) (by decide) generalizing s with
  | nil => exact ⟨[], s, rfl, List.forall_mem_nil _, isDecodingOf_nil, hasAccepted_zero s⟩
  | group xs hxs ih =>
    obtain ⟨rs, t, hrun, hok, hdec, ht⟩ := ih (s := deliverIndices (xs.take 8) s) (h.rest _ _)
    refine ⟨_, t, ?_, List.forall_mem_cons.mpr ⟨code_deliverIndices _ s, hok⟩,
      (isDecodingOf_deliverIndices (List.length_take_le 8 xs) s).append_rest hdec, ?_⟩
    · rw [groupsOf_step (by decide) (by simpa using hxs), List.map_cons, ← List.map_drop]
      exact issueAll_cons_of_run (h.issue_indices hxs) hrun
    · have hsum : (xs.take 8).length + (xs.drop 8).length = xs.length := by
        rw [← List.length_append, List.take_append_drop]
      exact hsum ▸ (hasAccepted_deliverGroup _ _ _ s).trans ht

/-! ### A stream with an invalid symbol (rules R131 and R133) -/

/-- `t` is `s` after full groups of valid symbols and then the first invalid symbol, the byte `c` at `p` symbols past
the POS of `s`; there is a new response. -/
def HasStopped (s : State) (p : Nat) (c : Byte) (t : State) : Prop :=
  ∃ n status data, t = ((s.acceptGroup n false).setError (s.pos + BitVec.ofNat 64 p) c).setResponse status data

theorem hasStopped_rejectGroup {s : State} (hfin : s.final = false) (e : Fin 8) (c : Byte) :
    HasStopped s e.val c (rejectGroup e c s) := by
  have hself : s.acceptGroup 0 false = s := by simp [State.acceptGroup, ← hfin]
  exact ⟨0, (rejectGroup e c s).rstat, (rejectGroup e c s).rdata, by rw [hself]; rfl⟩

theorem HasStopped.of_accepted {s t u : State} {n p : Nat} {c : Byte} (h : HasAccepted s n t)
    (k : HasStopped t p c u) : HasStopped s (n + p) c u := by
  obtain ⟨_, _, _, rfl⟩ := h
  obtain ⟨m, status, data, rfl⟩ := k
  refine ⟨n + m, status, data, ?_⟩
  simp [State.acceptGroup, State.setResponse, State.setError, BitVec.ofNat_add, BitVec.add_assoc]

theorem length_of_mem_groupsOf {α : Type} {k : Nat} (hk : 0 < k) {l g : List α} (hg : g ∈ groupsOf k l.length l) :
    1 ≤ g.length ∧ g.length ≤ k := by
  induction l using drop_induction hk with
  | nil => cases hg
  | group l hl ih =>
    rw [groupsOf_step hk hl, List.mem_cons] at hg
    obtain rfl | hg := hg
    · have hpos := List.length_pos_iff.mpr hl
      rw [List.length_take]
      omega
    · exact ih hg

theorem HasStopped.flags {s t : State} {p : Nat} {c : Byte} (h : HasStopped s p c t) :
    t.fault = s.fault ∧ t.mode = s.mode ∧ t.final = false ∧ t.err = true := by
  obtain ⟨_, _, _, rfl⟩ := h
  exact ⟨rfl, rfl, rfl, rfl⟩

theorem HasStopped.report {s t : State} {p : Nat} {c : Byte} (h : HasStopped s p c t) :
    HasStopped s p c (reportStoredError t) := by
  obtain ⟨n, _, _, rfl⟩ := h
  exact ⟨n, _, _, rfl⟩

/-- Rule R133: the groups after the first error change the response only. -/
theorem issueAll_dblkRequests_of_stopped {s t : State} {p : Nat} {c : Byte} (hf : s.fault = false) (hm : s.mode = .dec)
    (h : HasStopped s p c t) {gs : List (List Byte)} (hgs : ∀ g ∈ gs, 1 ≤ g.length ∧ g.length ≤ 8) :
    ∃ rs u, issueAll (gs.map dblkRequest) t = some (rs, u) ∧ HasStopped s p c u := by
  induction gs generalizing t with
  | nil => exact ⟨[], t, rfl, h⟩
  | cons g gs ih =>
    obtain ⟨hg, hgs⟩ := List.forall_mem_cons.mp hgs
    obtain ⟨hfault, hmode, hfinal, herr⟩ := h.flags
    have hexec := exec_dblk_stored (hfault.trans hf) (packBytes g) ((toNat_ofNat_count hg.2).symm ▸ hg)
      (hmode.trans hm) hfinal herr
    obtain ⟨rs, u, hrun, hu⟩ := ih h.report hgs
    exact ⟨_, u, issueAll_cons_of_run ((issue_dblkRequest hg t).trans hexec) hrun, hu⟩

/-- A stream with an invalid symbol: the full groups before it are taken, and it stops the scan. -/
theorem issueAll_dblkRequests_of_invalid {s : State} {m : List Byte} {p : Nat} (h : TakesSymbols s m.length)
    (hp : firstInvalidSymbol m = some p) :
    ∃ rs t c, issueAll ((groupsOf 8 m.length m).map dblkRequest) s = some (rs, t) ∧ m[p]? = some c ∧
      HasStopped s p c t := by
  induction m using drop_induction (k := 8) (by decide) generalizing s p with
  | nil => cases hp
  | group m hm ih =>
    have hissue := h.issue_first hm
    have happend := firstInvalidSymbol_append (m.take 8) (m.drop 8)
    rw [List.take_append_drop, hp] at happend
    rw [groupsOf_step (by decide) hm, List.map_cons]
    cases hfirst : firstInvalidSymbol (m.take 8) with
    | some q =>
      obtain ⟨e, c, rfl, hc, hdec⟩ := decBlock_packBytes_invalid (List.length_take_le 8 m) hfirst
      rw [decodeGroup_of_err hdec] at hissue
      rw [hfirst, Option.some_or, Option.some.injEq] at happend
      subst happend
      rw [List.getElem?_take_of_lt e.isLt] at hc
      have hstopped := hasStopped_rejectGroup (h.final (List.length_pos_iff.mpr hm)) e c
      obtain ⟨rs, t, hrun, ht⟩ := issueAll_dblkRequests_of_stopped h.fault h.mode hstopped
        fun g hg => length_of_mem_groupsOf (l := m.drop 8) (by decide) hg
      exact ⟨_, t, c, issueAll_cons_of_run hissue hrun, hc, ht⟩
    | none =>
      obtain ⟨xs, hxs⟩ := exists_indices_of_valid hfirst
      rw [← hxs, List.length_map, decodeGroup_of_ok (decBlock_packBytes_indices xs), hxs] at hissue
      rw [hfirst, Option.none_or] at happend
      obtain ⟨q, hq, rfl⟩ := Option.map_eq_some_iff.mp happend.symm
      have hlen : (m.take 8).length = xs.length := by rw [← hxs, List.length_map]
      obtain ⟨rs, t, c, hrun, hc, ht⟩ := ih (hlen ▸ h.rest _ _) hq
      refine ⟨_, t, c, issueAll_cons_of_run hissue hrun, ?_, ?_⟩
      · have hright := List.getElem?_append_right (l₁ := m.take 8) (l₂ := m.drop 8) (Nat.le_add_left _ q)
        rw [List.take_append_drop, Nat.add_sub_cancel] at hright
        exact hright.trans hc
      · rw [Nat.add_comm, hlen]
        exact .of_accepted (hasAccepted_deliverGroup _ _ _ s) ht

/-! ### FIN of a decode stream (rule R150) -/

theorem exec_fin_dec {s : State} (hf : s.fault = false) (hm : s.mode = .dec) :
    exec .fin s = .next (finishDecode s) := by
  rw [exec, execFin, unlessFaulted_of_no_fault hf, hm]

theorem finishDecode_answered_error {s : State} (he : s.err = true) :
    Answered (s.setStream .idle) (finishDecode s) .invalidInput 0 s.ebyte false s.epos := by
  rw [finishDecode, if_pos he]
  exact respond_answered _ _ _ _ _ (by decide)

theorem finishDecode_answered_ok {s : State} (he : s.err = false) :
    Answered (s.setStream .idle) (finishDecode s) .ok 0 0 false (lengthLow (decodedLen s.pos.toNat)) := by
  rw [finishDecode, if_neg (by simp [he])]
  exact respond_answered _ _ _ _ _ (by decide)

theorem finishDecode_length {s : State} (he : s.err = false) :
    (finishDecode s).rdata.toNat = decodedLen s.pos.toNat := by
  rw [(finishDecode_answered_ok he).rdata, lengthLow, BitVec.toNat_ofNat, Nat.mod_eq_of_lt (decodedLen_lt s.pos)]

/-! ### The whole expansion of `decode` (rules R79, R135 and R137) -/

/-- One response per command. -/
theorem issueAll_length {qs : List Request} {s t : State} {rs : List Response} (h : issueAll qs s = some (rs, t)) :
    rs.length = qs.length := by
  induction qs generalizing s rs with
  | nil => cases h; rfl
  | cons q qs ih =>
    obtain ⟨u, hu, -⟩ := runRequest_isResponse q s
    rw [issueAll_cons hu, Option.map_eq_some_iff] at h
    obtain ⟨⟨ps, v⟩, hrun, heq⟩ := h
    cases heq
    exact congrArg (· + 1) (ih hrun)

theorem expandDecode_length (m : List Byte) : (expandDecode m).length = ceilDiv m.length 8 + 2 := by
  rw [expandDecode, List.length_cons, List.length_append, List.length_map, groupsOf_length (by decide) rfl]
  rfl

/-- `t` is an open decode stream in the unit that was `s`: the stream registers and the response have changed. -/
structure HasScanned (s t : State) : Prop where
  fault : t.fault = s.fault
  mode : t.mode = .dec
  idle : t.setStream .idle = (s.setStream .idle).setResponse t.rstat t.rdata

theorem HasAccepted.hasScanned {s t : State} {n : Nat} (h : HasAccepted (openDecode s) n t) :
    HasScanned s t ∧ t.err = false ∧ t.pos = BitVec.ofNat 64 n := by
  obtain ⟨_, _, _, rfl⟩ := h
  exact ⟨⟨rfl, rfl, rfl⟩, rfl, BitVec.zero_add _⟩

theorem HasStopped.hasScanned {s t : State} {p : Nat} {c : Byte} (h : HasStopped (openDecode s) p c t) :
    HasScanned s t ∧ t.err = true ∧ t.epos = BitVec.ofNat 64 p ∧ t.ebyte = c := by
  obtain ⟨_, _, _, rfl⟩ := h
  exact ⟨⟨rfl, rfl, rfl⟩, rfl, BitVec.zero_add _, rfl⟩

/-- The unit is idle again: the stream registers and the response have changed, and nothing else. -/
def HasClosed (s t : State) : Prop := t = (s.setStream .idle).setResponse t.rstat t.rdata

theorem HasScanned.hasClosed {s t : State} (h : HasScanned s t) : HasClosed s (finishDecode t) := by
  have hframe : finishDecode t =
      (t.setStream .idle).setResponse (finishDecode t).rstat (finishDecode t).rdata := by
    cases he : t.err with
    | false => exact (finishDecode_answered_ok he).frame
    | true => exact (finishDecode_answered_error he).frame
  rwa [h.idle, State.setResponse_setResponse] at hframe

/-- SDEC opens the stream, the groups are scanned in order, and FIN closes the stream they leave. -/
theorem HasScanned.issueAll_expandDecode {s t : State} (h : HasScanned s t) (hf : s.fault = false) {m : List Byte}
    {rs : List Response} (hrun : issueAll ((groupsOf 8 m.length m).map dblkRequest) (openDecode s) = some (rs, t)) :
    issueAll (expandDecode m) s =
      some ((openDecode s).response :: (rs ++ [(finishDecode t).response]), finishDecode t) :=
  have hsdec : issueAll [encode .sdec] s = some ([(openDecode s).response], openDecode s) :=
    issueAll_single (decodeOfEncode .sdec rfl) (exec_sdec hf)
  have hfin : issueAll [encode .fin] t = some ([(finishDecode t).response], finishDecode t) :=
    issueAll_single (decodeOfEncode .fin rfl) (exec_fin_dec (h.fault.trans hf) h.mode)
  issueAll_append [_] _ hsdec (issueAll_append _ _ hrun hfin)

theorem takesSymbols_openDecode {s : State} (hf : s.fault = false) {n : Nat} (hn : n ≤ Config.posMax) :
    TakesSymbols (openDecode s) n :=
  ⟨hf, rfl, rfl, fun _ => rfl, (Nat.zero_add n).trans_le hn⟩

theorem toNat_ofNat_of_le_posMax {n : Nat} (h : n ≤ Config.posMax) : (BitVec.ofNat 64 n).toNat = n :=
  (BitVec.toNat_ofNat ..).trans (Nat.mod_eq_of_lt (Nat.lt_of_le_pred (by decide) h))

/-- A text of alphabet symbols decodes to the whole octets of its bit string. -/
theorem decode_of_indices {s : State} (hf : s.fault = false) {xs : List Idx} (hxs : xs.length ≤ Config.posMax) :
    ∃ rs t, issueAll (expandDecode (xs.map alpha)) s = some (rs, t) ∧
      (∀ r ∈ rs, statusCode r.rstat = codeBits .ok) ∧ statusCode t.rstat = codeBits .ok ∧
      IsDecodingOf xs (gatherKept rs) ∧ t.rdata.toNat = decodedLen xs.length ∧ HasClosed s t := by
  obtain ⟨rs, t, hrun, hok, hdec, ht⟩ := issueAll_dblkRequests_of_indices (takesSymbols_openDecode hf hxs)
  obtain ⟨hscan, herr, hpos⟩ := ht.hasScanned
  have hopen := openDecode_answered s
  have hclose := finishDecode_answered_ok herr
  refine ⟨_, _, hscan.issueAll_expandDecode hf hrun, ?_, hclose.code, ?_, ?_, hscan.hasClosed⟩
  · simp only [List.forall_mem_cons, List.forall_mem_append]
    exact ⟨hopen.code, hok, hclose.code, List.forall_mem_nil _⟩
  · simpa only [gatherKept, List.flatMap_cons, List.flatMap_append, List.flatMap_nil, keptLanes_of_kcnt_zero hopen,
      keptLanes_of_kcnt_zero hclose, List.nil_append, List.append_nil] using hdec
  · rw [finishDecode_length herr, hpos, toNat_ofNat_of_le_posMax hxs]

/-- Any other text ends with the index of its first invalid symbol and that symbol's byte. -/
theorem decode_of_invalid {s : State} (hf : s.fault = false) {m : List Byte} (hm : m.length ≤ Config.posMax) {p : Nat}
    (hp : firstInvalidSymbol m = some p) :
    ∃ rs t, issueAll (expandDecode m) s = some (rs, t) ∧ statusCode t.rstat = codeBits .invalidInput ∧
      t.rdata.toNat = p ∧ m[p]? = some (statusEbyte t.rstat) ∧ HasClosed s t := by
  obtain ⟨rs, t, c, hrun, hc, ht⟩ := issueAll_dblkRequests_of_invalid (takesSymbols_openDecode hf hm) hp
  obtain ⟨hscan, herr, hepos, rfl⟩ := ht.hasScanned
  have hclose := finishDecode_answered_error herr
  obtain ⟨hlt, -⟩ := List.getElem?_eq_some_iff.mp hc
  refine ⟨_, _, hscan.issueAll_expandDecode hf hrun, hclose.code, ?_, ?_, hscan.hasClosed⟩
  · rw [hclose.rdata, hepos, toNat_ofNat_of_le_posMax (hlt.le.trans hm)]
  · rw [hclose.ebyte, hc]

/-! ### The round trip of a stream (rule R138) -/

/-- The index of symbol j of the encoding of `d`. -/
def symbolIdx (d : List Byte) (j : Nat) : Idx := idxOfBits (((d.flatMap bitsOf).drop (5 * j)).take 5)

theorem map_alpha_map_symbolIdx (d : List Byte) (n : Nat) :
    ((List.range n).map (symbolIdx d)).map alpha = (List.range n).map (symbolAt d) := List.map_map

theorem bitsOf_idxOfBits (bs : List Bool) : bitsOf (idxOfBits bs) = (List.range 5).map (bs.getD · false) := by
  have hbit : ∀ b : Bool, bitsOf (BitVec.ofBool b) = [b] := by decide
  rw [idxOfBits, bitsOf_append (n := 4), bitsOf_append (n := 3), bitsOf_append (n := 2), bitsOf_append]
  simp only [hbit]
  rfl

/-- The bits of the symbols are the bits of the bytes, with zeros after them. -/
theorem flatMap_bitsOf_symbolIdx (d : List Byte) (n : Nat) :
    ((List.range n).map (symbolIdx d)).flatMap bitsOf =
      (List.range (5 * n)).map ((d.flatMap bitsOf).getD · false) := by
  induction n with
  | zero => rfl
  | succ n ih =>
    rw [List.range_succ, List.map_append, List.flatMap_append, ih, Nat.mul_succ, List.range_add, List.map_append]
    congr 1
    rw [List.map_singleton, List.flatMap_singleton, symbolIdx, bitsOf_idxOfBits, List.map_map]
    refine List.map_congr_left fun i hi => ?_
    rw [List.getD_eq_getElem?_getD, List.getElem?_take_of_lt (List.mem_range.mp hi), List.getElem?_drop,
      ← List.getD_eq_getElem?_getD]
    rfl

theorem map_getD_range {α : Type} (l : List α) (a : α) (n : Nat) :
    (List.range (l.length + n)).map (l.getD · a) = l ++ List.replicate n a := by
  apply List.ext_getElem (by simp)
  intro i _ _
  rw [List.getElem_map, List.getElem_range, List.getElem_append]
  split
  next hi => exact List.getD_eq_getElem _ _ hi
  next hi => rw [List.getElem_replicate, List.getD_eq_default _ _ (Nat.not_lt.mp hi)]

theorem range_isPrefix {m n : Nat} (h : m ≤ n) : List.range m <+: List.range n := by
  obtain ⟨k, rfl⟩ := Nat.exists_eq_add_of_le h
  exact ⟨_, List.range_add.symm⟩

/-- The symbols of `d`, and padding after them, decode to `d` and zeros after it. -/
theorem isDecodingOf_symbols {d : List Byte} {n : Nat} (h : encodedLen d.length ≤ n) :
    IsDecodingOf ((List.range n).map (symbolIdx d)) (d ++ List.replicate (decodedLen n - d.length) 0) := by
  rw [encodedLen_eq_div] at h
  have hlen : decodedLen n = d.length + (decodedLen n - d.length) := by unfold decodedLen; omega
  refine ⟨?_, ?_⟩
  · rw [List.length_append, List.length_replicate, List.length_map, List.length_range, ← hlen]
  · have hzero : bitsOf (0 : Byte) = List.replicate 8 false := rfl
    rw [flatMap_bitsOf_symbolIdx, List.flatMap_append, List.flatMap_replicate, hzero,
      List.flatten_replicate_replicate, ← map_getD_range, flatMap_bitsOf_length]
    have hfit : 8 * d.length + (decodedLen n - d.length) * 8 ≤ 5 * n := by unfold decodedLen; omega
    exact (range_isPrefix hfit).map _

theorem IsDecodingOf.unique {xs : List Idx} {bs cs : List Byte} (h : IsDecodingOf xs bs) (k : IsDecodingOf xs cs) :
    bs = cs := h.eq_canonicalBytes.trans k.eq_canonicalBytes.symm

/-- Decoding the first `n` symbols of the zero-extended encoding of `d`. -/
theorem decode_symbols {s : State} (hf : s.fault = false) {d : List Byte} {n : Nat} (hd : encodedLen d.length ≤ n)
    (hn : n ≤ Config.posMax) :
    ∃ ks u, issueAll (expandDecode ((List.range n).map (symbolAt d))) s = some (ks, u) ∧
      statusCode u.rstat = codeBits .ok ∧ gatherKept ks = d ++ List.replicate (decodedLen n - d.length) 0 ∧
      u.rdata.toNat = decodedLen n := by
  have hlen : ((List.range n).map (symbolIdx d)).length = n := by simp
  obtain ⟨ks, u, hrun, -, hcode, hdec, hdata, -⟩ := decode_of_indices hf (hlen.trans_le hn)
  rw [map_alpha_map_symbolIdx] at hrun
  exact ⟨ks, u, hrun, hcode, hdec.unique (isDecodingOf_symbols hd), hdata.trans (congrArg decodedLen hlen)⟩

/-! ### The statements -/

/-- Settles O56: a text is spelled by indices or has a first invalid symbol, and each kind of stream is an induction
over its groups of eight. -/
theorem decodeStreamHasOneResult : Obligations.DecodeStreamHasOneResult := by
  intro m s hf hm
  cases hp : firstInvalidSymbol m with
  | none =>
    obtain ⟨xs, rfl⟩ := exists_indices_of_valid hp
    rw [List.length_map] at hm ⊢
    obtain ⟨rs, t, hrun, hok, -, hdec, hdata, hclosed⟩ := decode_of_indices hf hm
    have hlen := (issueAll_length hrun).trans (expandDecode_length _)
    rw [List.length_map] at hlen
    refine ⟨rs, t, hrun, hlen, fun _ => ⟨hok, hdec.eq_canonicalBytes, ?_, hdata⟩, fun _ h => (nomatch h), hclosed⟩
    rw [← hdec.eq_canonicalBytes, hdec.length]
  | some p =>
    obtain ⟨rs, t, hrun, hcode, hdata, hbyte, hclosed⟩ := decode_of_invalid hf hm hp
    refine ⟨rs, t, hrun, (issueAll_length hrun).trans (expandDecode_length m), fun h => (nomatch h), fun q hq => ?_,
      hclosed⟩
    cases hq
    exact ⟨hcode, hdata, hbyte⟩

/-- Settles O57: the symbols that O55 gives are those of the bit string, and a decoding is the only byte sequence whose
bits start the bit string of its symbols. -/
theorem streamRoundTrip : Obligations.StreamRoundTrip := by
  intro d s hf hd
  have hle := encodedLen_le_bufferLen d.length
  have hlen : d.length ≤ encodedLen d.length := by rw [encodedLen_eq_div]; omega
  obtain ⟨rs, t, hrun, -, -, hkept, -, hall, -, hclosed⟩ :=
    encodeStreamIsTheCanonicalEncoding d s hf (hlen.trans (hle.trans hd))
  have hfault : t.fault = false := by rw [hclosed]; exact hf
  refine ⟨rs, t, hrun, ?_, ?_⟩
  · rw [hkept, canonicalSymbols_eq]
    simpa [decodedLen_encodedLen] using decode_symbols hfault (Nat.le_refl (encodedLen d.length)) (hle.trans hd)
  · rw [hall, ← map_symbolAt_bufferLen, ← decodedLen_bufferLen]
    exact decode_symbols hfault hle hd

/-- Settles O28, by the inversion of the scan. -/
theorem leastInvalidLaneIsReported : Obligations.LeastInvalidLaneIsReported := by
  intro din r _ _
  refine ⟨fun e c => ?_, ?_⟩
  · rw [decBlock_eq_err_iff, firstInvalid_eq_some_iff, and_assoc, and_assoc]
  · simp only [decBlock_eq_ok_iff, exists_and_left, exists_eq', and_true, firstInvalid_eq_none_iff]

/-- Settles O29: no shift of an index leaves its 16 bits before the truncation, and each byte is a slice of the
indices. -/
theorem byteAssemblyIsTheSlicing : Obligations.ByteAssemblyIsTheSlicing := by
  intro x
  refine ⟨?_, ?_, ?_, ?_, ?_, fun G hG i hi => hG ▸ assembledByte_eq_extract x hi⟩
  all_goals
    refine (BitVec.toNat_setWidth ..).trans ?_
    simp (disch := decide) only [BitVec.toNat_or, wide_shiftRight_toNat, wide_shiftLeft_toNat, wide_toNat]

/-- Settles O30: the given indices are the ones the decoder reads, lane by lane. -/
theorem laneMaskKeepsTheTruncation : Obligations.LaneMaskKeepsTheTruncation := by
  intro din r _ h8 _ x hx hfill
  have hidx (j : Fin 8) : laneIdx din r j = some (x j) := by
    obtain hj | hj := Nat.lt_or_ge j.val r
    · rw [laneIdx_of_lt hj, hx j hj]
    · rw [laneIdx_of_le hj, hfill j hj]
  exact ⟨_, decBlock_of_indices hidx, kDec_eq_getD r h8, lane_keptWord x _, keptWord_low x (kDec_le h8)⟩

/-- Settles O31: the significant symbols are enough for the bytes, so the decoder reassembles the encoder's group. -/
theorem groupRoundTrip : Obligations.GroupRoundTrip := by
  intro din r _ h5
  have hk := kEnc_eq_ceilDiv r h5
  unfold ceilDiv at hk
  refine ⟨?_, ?_⟩
  · rw [decBlock_encBlock din h5 (by omega), kDec_kEnc r h5, keptWord_fields din (Nat.le_refl r) h5]
    rfl
  · rw [decBlock_encBlock din h5 (by omega)]
    exact congrArg (DecResult.ok · 5) (keptWord_fields din h5 (Nat.le_refl 5))

/-- Settles O32: the kept bytes are octets of the indices below the count. -/
theorem fillerIsUnobservable : Obligations.FillerIsUnobservable := by
  intro r x y _ h7 h
  have hkept (i : Fin 8) (hi : i.val < kDec r) : assembledByte x i = assembledByte y i :=
    assembledByte_congr (h7.trans (by decide)) h hi
  refine ⟨hkept, word_ext fun i => ?_⟩
  rw [lane_keptWord, lane_keptWord]
  exact ite_congr rfl (hkept i) fun _ => rfl

/-- Settles O33: INV has an entry for each symbol of ALPHA and no other byte, and the scan asks for nothing else. -/
theorem decodingIsStrictButNotCanonical : Obligations.DecodingIsStrictButNotCanonical := by
  refine ⟨fun c => ?_, by decide, fun din r _ _ h => ?_, by decide, by decide⟩
  · simp only [Option.isSome_iff_exists, inv_eq_some_iff]
  · refine ⟨_, decBlock_eq_ok_iff.mpr ⟨firstInvalid_eq_none_iff.mpr fun j hj => ?_, rfl, rfl⟩⟩
    obtain ⟨v, hv⟩ := h j hj
    simp [hv]

/-- Settles O34: SDEC asks for no MODE, and its next state is written out. -/
theorem sdecOpensADecodeStream : Obligations.SdecOpensADecodeStream :=
  ⟨fun _ => rfl, fun c din hc => decodeCmd_eq_error_of_zero (decodeCmd_sdec_illegal c hc) din,
    fun s hf => ⟨_, exec_sdec hf, openDecode_answered s, (openDecode_answered s).mode, (openDecode_answered s).final,
      (openDecode_answered s).err⟩,
    fun _ hf => exec_answers_faulted hf .sdec, _, exec_sdec rfl, by decide, rfl⟩

/-- Settles O35, check by check in the order of the command. -/
theorem dblkDecodesOneGroup : Obligations.DblkDecodesOneGroup := by
  obtain ⟨-, -, hdecode, -⟩ := commandMapIsComplete
  refine ⟨hdecode, fun r din s hf => exec_answers_faulted hf (.dblk r din),
    fun r din s hf hc => ⟨_, exec_dblk_badCount hf din hc, raiseFault_answered ..⟩,
    fun r din s hf h1 h8 hm => ⟨_, exec_dblk_seqErr hf din ⟨h1, h8⟩ hm, raiseFault_answered ..⟩,
    fun r din s hf h1 h8 hm hfin he =>
      ⟨_, exec_dblk_stored hf din ⟨h1, h8⟩ hm hfin he, reportStoredError_answered s⟩,
    fun r din s hf h1 h8 hm hfin he ho =>
      ⟨_, exec_dblk_posOvf hf din ⟨h1, h8⟩ hm hfin he ho, raiseFault_answered ..⟩,
    fun r din s e c hf h1 h8 hm hfin he ho hd => ?_, fun r din s out k hf h1 h8 hm hfin he ho hd => ?_,
    rfl, by decide, by decide, fun d e r _ _ h => decBlock_congr h, ?_⟩
  · obtain ⟨hscan, -⟩ := decBlock_eq_err_iff.mp hd
    have hlt := (lane_of_firstInvalid hscan).1
    have hexec := exec_dblk_scan hf din ⟨h1, h8⟩ hm hfin he ho
    rw [decodeGroup_of_err hd] at hexec
    exact ⟨_, hexec, rejectGroup_answered e c s, toNat_add_of_le_posMax ((Nat.add_le_add_left hlt.le _).trans ho)⟩
  · obtain ⟨-, -, hk⟩ := decBlock_eq_ok_iff.mp hd
    have hexec := exec_dblk_scan hf din ⟨h1, h8⟩ hm hfin he ho
    rw [decodeGroup_of_ok hd] at hexec
    exact ⟨_, hexec, deliverGroup_answered _ _ (hk ▸ kDec_le h8) s, hk.symm, toNat_add_of_le_posMax ho⟩
  · rintro s rfl
    exact ⟨_, exec_dblk_scan rfl _ (by decide) rfl rfl rfl (by decide), by decide⟩

end Sys2Proof.Machine

/-! ## Stream control: the statements on 43_stream_control.md

The state machine is a case split on the phase, where the table computes, with the command equations for the checks of
that phase. The run of a script rests on one fact, that no command reads or writes the host's list. -/

namespace Sys2Proof.Machine

/-! ### The phase of a state (rule R153) -/

theorem phase_eq_idle_iff {s : State} : s.phase = .idle ↔ s.mode = .idle := by
  unfold State.phase
  cases s.mode <;> simp

theorem phase_eq_enc_iff {s : State} {f : Bool} : s.phase = .enc f ↔ s.mode = .enc ∧ s.final = f := by
  unfold State.phase
  cases s.mode <;> simp

theorem phase_eq_dec_iff {s : State} {f e : Bool} :
    s.phase = .dec f e ↔ s.mode = .dec ∧ s.final = f ∧ s.err = e := by
  unfold State.phase
  cases s.mode <;> simp

/-- The table's question about a group is whether the scan finds a lane. -/
theorem groupInvalid_eq_isSome_firstInvalid (din : Word) (r : Nat) :
    groupInvalid din r = (firstInvalid din r).isSome := by
  have hlane (j : Fin 8) : (decide (j.val < r) && (inv (lane din j)).isNone) = (laneIdx din r j).isNone := by
    rw [Bool.eq_iff_iff, isNone_laneIdx_iff, Bool.and_eq_true, decide_eq_true_iff, Option.isNone_iff_eq_none]
  rw [groupInvalid, firstInvalid, List.isSome_find?, funext hlane]

/-- `t` is in the phase and shows the code of an entry of the table, and is faulted exactly for SEQ_ERR. -/
structure MeetsEntry (t : State) (entry : Phase × Code) : Prop where
  phase : t.phase = entry.1
  code : statusCode t.rstat = codeBits entry.2
  fault : t.fault = true ↔ entry.2 = .violation .seqErr

/-- An answer that is no SEQ_ERR, in a state without a fault. -/
theorem Answered.meetsEntry {base t : State} {code : Code} {kcnt : Nat} {ebyte : Byte} {len64 : Bool} {data : Word}
    (h : Answered base t code kcnt ebyte len64 data) (hf : base.fault = false) (hc : code ≠ .violation .seqErr)
    {p : Phase} (hp : base.phase = p) : MeetsEntry t (p, code) where
  phase := (congrArg State.phase h.frame).trans hp
  code := h.code
  fault := by
    have hfault : t.fault = false := (congrArg State.fault h.frame).trans hf
    simp [hfault, hc]

/-- The fault action leaves the phase as it is. -/
theorem meetsEntry_raiseFault {s : State} {p : Phase} (hp : s.phase = p) :
    MeetsEntry (raiseFault .seqErr s) (p, .violation .seqErr) where
  phase := hp
  code := (raiseFault_answered .seqErr s).code
  fault := iff_of_true rfl rfl

/-! ### STAT, and FIN in each MODE (rules R150 and R152) -/

theorem decodeCmd_fin_illegal : ∀ c : BitVec 4, c ≠ 0 →
    decodeCmd (0x50 ||| c.setWidth 8) 0 = .error .illegalCmd := by decide

theorem decodeCmd_stat_illegal : ∀ c : BitVec 4, c ≠ 0 →
    decodeCmd (c.setWidth 8) 0 = .error .illegalCmd := by decide

/-- STAT's next state: POS and EBYTE in the response. -/
def reportPosition (s : State) : State := respond .ok 0 s.ebyte false s.pos s

theorem reportPosition_answered (s : State) : Answered s (reportPosition s) .ok 0 s.ebyte false s.pos :=
  respond_answered _ _ _ _ s (by decide)

theorem exec_stat {s : State} (hf : s.fault = false) : exec .stat s = .next (reportPosition s) :=
  unlessFaulted_of_no_fault hf _

theorem exec_fin_idle {s : State} (hf : s.fault = false) (hm : s.mode = .idle) :
    exec .fin s = .next (raiseFault .seqErr s) := by
  rw [exec, execFin, unlessFaulted_of_no_fault hf, hm]

/-! ### Each command against the table (rule R153) -/

section Table

variable {s : State} (hf : s.fault = false)
include hf

theorem exec_fin_meetsEntry : ∃ t, exec .fin s = .next t ∧ MeetsEntry t (phaseTable .fin s.phase) := by
  cases hp : s.phase with
  | idle => exact ⟨_, exec_fin_idle hf (phase_eq_idle_iff.mp hp), meetsEntry_raiseFault hp⟩
  | enc f => exact ⟨_, exec_fin_enc hf (phase_eq_enc_iff.mp hp).1, (finishEncode_answered s).meetsEntry hf nofun rfl⟩
  | dec f e =>
    obtain ⟨hm, -, he⟩ := phase_eq_dec_iff.mp hp
    cases e with
    | false => exact ⟨_, exec_fin_dec hf hm, (finishDecode_answered_ok he).meetsEntry hf nofun rfl⟩
    | true => exact ⟨_, exec_fin_dec hf hm, (finishDecode_answered_error he).meetsEntry hf nofun rfl⟩

variable {cnt : BitVec 4} (din : Word)

/-- The last action of DBLK, in an open decode stream without an error: the scan decides the entry. -/
theorem decodeGroup_meetsEntry (hc : cnt.toNat ≤ 8) (hm : s.mode = .dec) (hfin : s.final = false) (he : s.err = false) :
    MeetsEntry (decodeGroup cnt.toNat din s) (phaseTable (.dblk cnt din) (.dec false false)) := by
  rw [phaseTable, groupInvalid_eq_isSome_firstInvalid, decodeGroup, decBlock]
  cases firstInvalid din cnt.toNat with
  | some e => exact (rejectGroup_answered e _ s).meetsEntry hf nofun (phase_eq_dec_iff.mpr ⟨hm, hfin, rfl⟩)
  | none =>
    exact (deliverGroup_answered _ _ (kDec_le hc) s).meetsEntry hf nofun (phase_eq_dec_iff.mpr ⟨hm, rfl, he⟩)

variable (ho : s.pos.toNat + cnt.toNat ≤ Config.posMax)
include ho

theorem exec_eblk_meetsEntry (hc : 1 ≤ cnt.toNat ∧ cnt.toNat ≤ 5) :
    ∃ t, exec (.eblk cnt din) s = .next t ∧ MeetsEntry t (phaseTable (.eblk cnt din) s.phase) := by
  have hseq {p : Phase} (hp : s.phase = p) (hm : s.mode ≠ .enc ∨ s.final = true) :
      ∃ t, exec (.eblk cnt din) s = .next t ∧ MeetsEntry t (p, .violation .seqErr) :=
    ⟨_, exec_eblk_seqErr hf din hc hm, meetsEntry_raiseFault hp⟩
  cases hp : s.phase with
  | idle => exact hseq hp (.inl (by simp [phase_eq_idle_iff.mp hp]))
  | dec f e => exact hseq hp (.inl (by simp [(phase_eq_dec_iff.mp hp).1]))
  | enc f =>
    obtain ⟨hm, hfin⟩ := phase_eq_enc_iff.mp hp
    cases f with
    | true => exact hseq hp (.inr hfin)
    | false =>
      exact ⟨_, exec_eblk_ok hf din hc hm hfin ho,
        (encodeGroup_answered ..).meetsEntry hf nofun (phase_eq_enc_iff.mpr ⟨hm, rfl⟩)⟩

theorem exec_dblk_meetsEntry (hc : 1 ≤ cnt.toNat ∧ cnt.toNat ≤ 8) :
    ∃ t, exec (.dblk cnt din) s = .next t ∧ MeetsEntry t (phaseTable (.dblk cnt din) s.phase) := by
  have hseq {p : Phase} (hp : s.phase = p) (hm : s.mode ≠ .dec ∨ s.final = true) :
      ∃ t, exec (.dblk cnt din) s = .next t ∧ MeetsEntry t (p, .violation .seqErr) :=
    ⟨_, exec_dblk_seqErr hf din hc hm, meetsEntry_raiseFault hp⟩
  cases hp : s.phase with
  | idle => exact hseq hp (.inl (by simp [phase_eq_idle_iff.mp hp]))
  | enc f => exact hseq hp (.inl (by simp [(phase_eq_enc_iff.mp hp).1]))
  | dec f e =>
    obtain ⟨hm, hfin, he⟩ := phase_eq_dec_iff.mp hp
    cases f with
    | true => exact hseq hp (.inr hfin)
    | false =>
      cases e with
      | true => exact ⟨_, exec_dblk_stored hf din hc hm hfin he, (reportStoredError_answered s).meetsEntry hf nofun hp⟩
      | false => exact ⟨_, exec_dblk_scan hf din hc hm hfin he ho, decodeGroup_meetsEntry hf din hc.2 hm hfin he⟩

end Table

/-! ### The host's list is neither read nor written (log entry 1) -/

/-- The result with the host's list of its state replaced. -/
def withHost (h : List HostAction) : Result → Result
  | .next t => .next (t.setHost h)
  | .fault f => .fault f
  | .refused r => .refused r

@[simp] theorem withHost_next (h : List HostAction) (t : State) : withHost h (.next t) = .next (t.setHost h) := rfl

theorem unlessFaulted_setHost {h : List HostAction} (s : State) {r r' : Result} (hr : r' = withHost h r) :
    unlessFaulted (s.setHost h) r' = withHost h (unlessFaulted s r) := by
  unfold unlessFaulted
  rw [State.setHost_fault, apply_ite (withHost h), hr]
  rfl

theorem decodeGroup_setHost (r : Nat) (din : Word) (s : State) (h : List HostAction) :
    decodeGroup r din (s.setHost h) = (decodeGroup r din s).setHost h := by
  unfold decodeGroup
  cases decBlock din r <;> rfl

theorem finishDecode_setHost (s : State) (h : List HostAction) :
    finishDecode (s.setHost h) = (finishDecode s).setHost h := by
  unfold finishDecode
  rw [apply_ite (State.setHost · h)]
  rfl

theorem exec_setHost (i : Instr) (s : State) (h : List HostAction) :
    exec i (s.setHost h) = withHost h (exec i s) := by
  cases i with
  | stat | senc | sdec | lene | lenb => exact unlessFaulted_setHost s rfl
  | eblk cnt din =>
    refine unlessFaulted_setHost s ?_
    simp only [apply_ite (withHost h)]
    rfl
  | dblk cnt din =>
    refine unlessFaulted_setHost s ?_
    simp only [apply_ite (withHost h), decodeGroup_setHost]
    rfl
  | fin =>
    refine unlessFaulted_setHost s ?_
    simp only [State.setHost_mode, finishDecode_setHost]
    cases s.mode <;> rfl

theorem runRequest_setHost (q : Request) (s : State) (h : List HostAction) :
    runRequest q (s.setHost h) = withHost h (runRequest q s) := by
  cases hd : decodeRequest q with
  | ok i => rw [runRequest_of_ok hd, runRequest_of_ok hd, exec_setHost]
  | error c =>
    rw [runRequest_of_error hd, runRequest_of_error hd]
    exact unlessFaulted_setHost s rfl

/-- A command leaves the host's list as it is. -/
theorem host_of_runRequest {q : Request} {s t : State} (h : runRequest q s = .next t) : t.host = s.host := by
  have hself := runRequest_setHost q s s.host
  rw [State.setHost_self, h, withHost_next] at hself
  have heq : t = t.setHost s.host := Host.Outcome.next.inj hself
  rw [heq, State.setHost_host]

/-- One step of a run. -/
theorem run_succ {M : Host.Core} {s t : M.State} (h : M.step s = .next t) (k : Nat) : M.run (k + 1) s = M.run k t := by
  rw [Host.Core.run, h]

/-- Issuing a command is the step of the unit whose list has the command in front, whatever stands after it. -/
theorem step_of_issued {q : Request} {s t : State} (h : issue q s = .next t) (rest : List HostAction) :
    step (s.setHost (.command q :: rest)) = .next (t.setHost rest) := by
  rw [issue_eq] at h
  rw [step_of_command rfl]
  exact (runRequest_setHost q s rest).trans (congrArg (withHost rest) h)

theorem core_run_of_issueAll {qs : List Request} {s t : State} {rs : List Response}
    (h : issueAll qs s = some (rs, t)) :
    core.run qs.length (s.setHost (qs.map .command ++ s.host)) = .next t := by
  induction qs generalizing s rs with
  | nil => cases h; rfl
  | cons q qs ih =>
    obtain ⟨u, hu, -⟩ := runRequest_isResponse q s
    rw [issueAll_cons hu, Option.map_eq_some_iff] at h
    obtain ⟨⟨ps, v⟩, hrun, heq⟩ := h
    cases heq
    have hstep : core.step (s.setHost ((q :: qs).map .command ++ s.host)) =
        .next (u.setHost (qs.map .command ++ u.host)) := by
      rw [host_of_runRequest hu]
      exact step_of_issued hu _
    exact (run_succ hstep qs.length).trans (ih hrun)

/-! ### The statements -/

/-- Settles O38, command by command: EBLK, DBLK and FIN by the phase, and the other five commands in every phase. -/
theorem streamStateMachine : Obligations.StreamStateMachine := by
  intro i s hf hwf ho
  suffices hentry : ∃ t, exec i s = .next t ∧ MeetsEntry t (phaseTable i s.phase) by
    obtain ⟨t, ht, hphase, hcode, hfault⟩ := hentry
    exact ⟨t, ht, hphase, hcode, hfault⟩
  cases i with
  | stat => exact ⟨_, exec_stat hf, (reportPosition_answered s).meetsEntry hf nofun rfl⟩
  | lene n => exact ⟨_, exec_lene hf n, (respondLength_answered _ s).meetsEntry hf nofun rfl⟩
  | lenb n => exact ⟨_, exec_lenb hf n, (respondLength_answered _ s).meetsEntry hf nofun rfl⟩
  | senc => exact ⟨_, exec_senc hf, (openEncode_answered s).meetsEntry hf nofun rfl⟩
  | sdec => exact ⟨_, exec_sdec hf, (openDecode_answered s).meetsEntry hf nofun rfl⟩
  | eblk cnt din => exact exec_eblk_meetsEntry hf din ho (of_decide_eq_true hwf)
  | dblk cnt din => exact exec_dblk_meetsEntry hf din ho (of_decide_eq_true hwf)
  | fin => exact exec_fin_meetsEntry hf

/-- Settles O36, by FIN's result in each MODE. -/
theorem finReturnsTheStreamResult : Obligations.FinReturnsTheStreamResult := by
  refine ⟨fun _ => rfl, fun c din hc => decodeCmd_eq_error_of_zero (decodeCmd_fin_illegal c hc) din,
    fun _ hf => exec_answers_faulted hf .fin,
    fun s hf hm => ⟨_, exec_fin_idle hf hm, raiseFault_answered .seqErr s⟩,
    fun s hf hm => ⟨_, exec_fin_enc hf hm, finishEncode_answered s⟩,
    fun _ hf hm he => ⟨_, exec_fin_dec hf hm, finishDecode_answered_error he⟩,
    fun _ hf hm he => ⟨_, exec_fin_dec hf hm, { finishDecode_answered_ok he with rdata := rfl },
      finishDecode_length he⟩,
    rfl, rfl, ?_, ?_⟩
  · rintro s rfl
    exact ⟨_, exec_fin_enc rfl rfl, by decide⟩
  · rintro s rfl
    exact ⟨_, exec_fin_dec rfl rfl, by decide⟩

/-- Settles O37: STAT asks for no MODE, and its response copies POS and EBYTE. -/
theorem statReadsThePosition : Obligations.StatReadsThePosition := by
  refine ⟨fun _ => rfl, fun c din hc => decodeCmd_eq_error_of_zero (decodeCmd_stat_illegal c hc) din,
    fun s hf => ?_, fun _ hf => exec_answers_faulted hf .stat, fun s hf hs hm => ?_, ?_⟩
  · have ha := reportPosition_answered s
    exact ⟨_, exec_stat hf, ha, ha.fault.trans hf,
      fun hi => ha.fcause.trans (congrArg fcauseBits (hi.fcause_eq_none hf))⟩
  · obtain ⟨hpos, -⟩ := hs.idle_clear hm
    exact ⟨_, exec_stat hf, hpos⟩
  · rintro s rfl
    exact ⟨_, exec_stat rfl, by decide⟩

/-- Settles O54, by induction over the script: no command reads or writes the host's list (log entry 1). -/
theorem issuedCommandsAreTheRun : Obligations.IssuedCommandsAreTheRun := fun _ _ _ _ h =>
  ⟨issueAll_length h, core_run_of_issueAll h⟩

end Sys2Proof.Machine

/-! ## Result codes and faults: the statements on 60_exceptions.md

The checks of rule R176 and the command they let through are said once, in two relations: `Reports` names, for a command
in a unit with FAULT = 0, the code it reports with the state it leads to, and `Presented` adds the two checks before it,
on FAULT and on the word. Every presented word meets `Presented` at the code that Safety.lean's `checkedCode` gives, and
the statements are read off its cases. -/

namespace Sys2Proof

/-! ### The words that spell no command, by their fields (rules R72 and R77) -/

theorem withZeroCount_eq_error {cnt : BitVec 4} {i : Instr} {c : FaultCause} (h : withZeroCount cnt i = .error c) :
    cnt ≠ 0 ∧ c = .illegalCmd := by
  unfold withZeroCount at h
  split at h
  next => cases h
  next hcnt => exact ⟨hcnt, (Except.error.inj h).symm⟩

theorem withLegalCount_eq_error {i : Instr} {c : FaultCause} (h : withLegalCount i = .error c) :
    i.wellFormed ≠ true ∧ c = .badCount := by
  unfold withLegalCount at h
  split at h
  next => cases h
  next hi => exact ⟨hi, (Except.error.inj h).symm⟩

/-- The inversion lemma of the decoder for a rejected word. -/
theorem decodeCmd_error_cases {cmd : CmdWord} {din : Word} {c : FaultCause} (h : decodeCmd cmd din = .error c) :
    (c = .illegalCmd ∧ (8 ≤ (opcField cmd).toNat ∨ (cntField cmd ≠ 0 ∧ opcField cmd ≠ 3 ∧ opcField cmd ≠ 4))) ∨
    (c = .badCount ∧
      ((opcField cmd = 3 ∧ ¬ (1 ≤ (cntField cmd).toNat ∧ (cntField cmd).toNat ≤ 5)) ∨
        (opcField cmd = 4 ∧ ¬ (1 ≤ (cntField cmd).toNat ∧ (cntField cmd).toNat ≤ 8)))) := by
  unfold decodeCmd at h
  split at h
  case h_4 hopc =>
    obtain ⟨hwf, rfl⟩ := withLegalCount_eq_error h
    exact .inr ⟨rfl, .inl ⟨BitVec.eq_of_toNat_eq hopc, fun hc => hwf (decide_eq_true hc)⟩⟩
  case h_5 hopc =>
    obtain ⟨hwf, rfl⟩ := withLegalCount_eq_error h
    exact .inr ⟨rfl, .inr ⟨BitVec.eq_of_toNat_eq hopc, fun hc => hwf (decide_eq_true hc)⟩⟩
  case h_9 =>
    simp only [imp_false] at *
    exact .inl ⟨(Except.error.inj h).symm, .inl (by omega)⟩
  case h_1 hopc | h_2 hopc | h_3 hopc | h_6 hopc | h_7 hopc | h_8 hopc =>
    obtain ⟨hcnt, rfl⟩ := withZeroCount_eq_error h
    exact .inl ⟨rfl, .inr ⟨hcnt, fun h3 => by simp [h3] at hopc, fun h4 => by simp [h4] at hopc⟩⟩

end Sys2Proof

namespace Sys2Proof.Machine

/-! ### The code a command reports, with the state it leads to (rule R176, from the third check on) -/

/-- The command `i`, in the unit `s` with FAULT = 0, reports the code and leads to the state; each case names the check
that decides it, or the result when every check is passed. -/
inductive Reports (s : State) : Instr → Code → State → Prop where
  | seqErrEblk (cnt : BitVec 4) (din : Word) (hseq : s.mode ≠ .enc ∨ s.final = true) :
      Reports s (.eblk cnt din) (.violation .seqErr) (raiseFault .seqErr s)
  | seqErrDblk (cnt : BitVec 4) (din : Word) (hseq : s.mode ≠ .dec ∨ s.final = true) :
      Reports s (.dblk cnt din) (.violation .seqErr) (raiseFault .seqErr s)
  | seqErrFin (hm : s.mode = .idle) : Reports s .fin (.violation .seqErr) (raiseFault .seqErr s)
  | posOvf (i : Instr) (hi : (∃ c d, i = .eblk c d) ∨ ∃ c d, i = .dblk c d)
      (ho : Config.posMax < s.pos.toNat + groupCount i) : Reports s i (.violation .posOvf) (raiseFault .posOvf s)
  | storedError (cnt : BitVec 4) (din : Word) (hm : s.mode = .dec) (he : s.err = true) :
      Reports s (.dblk cnt din) .invalidInput (reportStoredError s)
  | invalidSymbol (cnt : BitVec 4) (din : Word) (e : Fin 8) (hm : s.mode = .dec) (he : s.err = false)
      (ho : s.pos.toNat + cnt.toNat ≤ Config.posMax) (hi : firstInvalid din cnt.toNat = some e) :
      Reports s (.dblk cnt din) .invalidInput (rejectGroup e (lane din e) s)
  | finError (hm : s.mode = .dec) (he : s.err = true) : Reports s .fin .invalidInput (finishDecode s)
  | stat : Reports s .stat .ok (reportPosition s)
  | senc : Reports s .senc .ok (openEncode s)
  | sdec : Reports s .sdec .ok (openDecode s)
  | eblk (cnt : BitVec 4) (din : Word) (hm : s.mode = .enc) : Reports s (.eblk cnt din) .ok (encodeGroup cnt.toNat din s)
  | dblk (cnt : BitVec 4) (din out : Word) (he : s.err = false)
      (hout : decBlock din cnt.toNat = .ok out (kDec cnt.toNat)) :
      Reports s (.dblk cnt din) .ok (deliverGroup cnt.toNat out (kDec cnt.toNat) s)
  | finEnc (hm : s.mode = .enc) : Reports s .fin .ok (finishEncode s)
  | finDec (hm : s.mode = .dec) (he : s.err = false) : Reports s .fin .ok (finishDecode s)
  | lene (n : Word) : Reports s (.lene n) .ok (respondLength (encodedLen n.toNat) s)
  | lenb (n : Word) : Reports s (.lenb n) .ok (respondLength (bufferLen n.toNat) s)

/-- A group command that passes the SEQ_ERR check has its stream open, and not final. -/
theorem in_sequence {s : State} {m : Mode} (h : ¬ (s.mode ≠ m ∨ s.final = true)) : s.mode = m ∧ s.final = false := by
  simpa using h

/-- The last check of DBLK and the scan are one question. -/
theorem decodeGroup_reports {s : State} {cnt : BitVec 4} (din : Word) (hm : s.mode = .dec)
    (he : s.err = false) (ho : s.pos.toNat + cnt.toNat ≤ Config.posMax) :
    Reports s (.dblk cnt din) (if groupInvalid din cnt.toNat then .invalidInput else .ok)
      (decodeGroup cnt.toNat din s) := by
  rw [groupInvalid_eq_isSome_firstInvalid]
  cases hi : firstInvalid din cnt.toNat with
  | some e =>
    rw [decodeGroup_of_err (decBlock_eq_err_iff.mpr ⟨hi, rfl⟩)]
    exact .invalidSymbol cnt din e hm he ho hi
  | none =>
    have hout := decBlock_eq_ok_iff.mpr ⟨hi, rfl, rfl⟩
    rw [decodeGroup_of_ok hout]
    exact .dblk cnt din _ he hout

section Command

variable {s : State} (hf : s.fault = false)
include hf

theorem exec_eblk_reports {cnt : BitVec 4} (din : Word) (hc : 1 ≤ cnt.toNat ∧ cnt.toNat ≤ 5) :
    ∃ t, exec (.eblk cnt din) s = .next t ∧ Reports s (.eblk cnt din) (commandCode (.eblk cnt din) s) t := by
  by_cases hseq : s.mode ≠ .enc ∨ s.final = true
  · rw [commandCode, if_pos hseq]
    exact ⟨_, exec_eblk_seqErr hf din hc hseq, .seqErrEblk cnt din hseq⟩
  obtain ⟨hm, hfin⟩ := in_sequence hseq
  rw [commandCode, if_neg hseq]
  by_cases ho : s.pos.toNat + cnt.toNat > Config.posMax
  · rw [if_pos ho]
    exact ⟨_, exec_eblk_posOvf hf din hc hm hfin ho, .posOvf _ (.inl ⟨cnt, din, rfl⟩) ho⟩
  · rw [if_neg ho]
    exact ⟨_, exec_eblk_ok hf din hc hm hfin (Nat.not_lt.mp ho), .eblk cnt din hm⟩

theorem exec_dblk_reports {cnt : BitVec 4} (din : Word) (hc : 1 ≤ cnt.toNat ∧ cnt.toNat ≤ 8) :
    ∃ t, exec (.dblk cnt din) s = .next t ∧ Reports s (.dblk cnt din) (commandCode (.dblk cnt din) s) t := by
  by_cases hseq : s.mode ≠ .dec ∨ s.final = true
  · rw [commandCode, if_pos hseq]
    exact ⟨_, exec_dblk_seqErr hf din hc hseq, .seqErrDblk cnt din hseq⟩
  obtain ⟨hm, hfin⟩ := in_sequence hseq
  rw [commandCode, if_neg hseq]
  by_cases he : s.err = true
  · rw [if_pos he]
    exact ⟨_, exec_dblk_stored hf din hc hm hfin he, .storedError cnt din hm he⟩
  rw [if_neg he]
  rw [Bool.not_eq_true] at he
  by_cases ho : s.pos.toNat + cnt.toNat > Config.posMax
  · rw [if_pos ho]
    exact ⟨_, exec_dblk_posOvf hf din hc hm hfin he ho, .posOvf _ (.inr ⟨cnt, din, rfl⟩) ho⟩
  · rw [if_neg ho]
    exact ⟨_, exec_dblk_scan hf din hc hm hfin he (Nat.not_lt.mp ho),
      decodeGroup_reports din hm he (Nat.not_lt.mp ho)⟩

theorem exec_fin_reports : ∃ t, exec .fin s = .next t ∧ Reports s .fin (commandCode .fin s) t := by
  unfold commandCode
  cases hm : s.mode with
  | idle => exact ⟨_, exec_fin_idle hf hm, .seqErrFin hm⟩
  | enc => exact ⟨_, exec_fin_enc hf hm, .finEnc hm⟩
  | dec =>
    cases he : s.err with
    | false => exact ⟨_, exec_fin_dec hf hm, .finDec hm he⟩
    | true => exact ⟨_, exec_fin_dec hf hm, .finError hm he⟩

/-- Rule R176 for a command: it reports the code of its first check that applies. -/
theorem exec_reports {i : Instr} (hwf : i.wellFormed = true) :
    ∃ t, exec i s = .next t ∧ Reports s i (commandCode i s) t := by
  cases i with
  | stat => exact ⟨_, exec_stat hf, .stat⟩
  | senc => exact ⟨_, exec_senc hf, .senc⟩
  | sdec => exact ⟨_, exec_sdec hf, .sdec⟩
  | eblk cnt din => exact exec_eblk_reports hf din (of_decide_eq_true hwf)
  | dblk cnt din => exact exec_dblk_reports hf din (of_decide_eq_true hwf)
  | fin => exact exec_fin_reports hf
  | lene n => exact ⟨_, exec_lene hf n, .lene n⟩
  | lenb n => exact ⟨_, exec_lenb hf n, .lenb n⟩

end Command

/-! ### The outcome of a presented word (rule R176, all checks) -/

/-- The word `q`, presented to the unit `s`, reports the code and leads to the state. -/
inductive Presented (q : Request) (s : State) : Code → State → Prop where
  | faulted (hf : s.fault = true) : Presented q s .faulted (respondFaulted s)
  | rejected (c : FaultCause) (hf : s.fault = false) (hd : decodeRequest q = .error c) :
      Presented q s (.violation c) (raiseFault c s)
  | command {i : Instr} {code : Code} {t : State} (hf : s.fault = false) (hd : decodeRequest q = .ok i)
      (hr : Reports s i code t) : Presented q s code t

theorem runRequest_of_fault {s : State} (hf : s.fault = true) (q : Request) :
    runRequest q s = .next (respondFaulted s) := by
  cases hd : decodeRequest q with
  | error c => exact (runRequest_of_error hd s).trans (unlessFaulted_of_fault hf _)
  | ok i => exact (runRequest_of_ok hd s).trans (exec_of_fault hf i)

/-- Rule R176: every presented word reports the code of the first check that applies. -/
theorem runRequest_presented (q : Request) (s : State) :
    ∃ t, runRequest q s = .next t ∧ Presented q s (checkedCode q s) t := by
  unfold checkedCode
  cases hf : s.fault with
  | true => exact ⟨_, runRequest_of_fault hf q, .faulted hf⟩
  | false =>
    cases hd : decodeRequest q with
    | error c => exact ⟨_, (runRequest_of_error hd s).trans (unlessFaulted_of_no_fault hf _), .rejected c hf hd⟩
    | ok i =>
      obtain ⟨t, ht, hr⟩ := exec_reports hf (decodeCmd_eq_ok_iff.mp hd).1
      exact ⟨t, (runRequest_of_ok hd s).trans ht, .command hf hd hr⟩

theorem presented_of_runRequest {q : Request} {s t : State} (h : runRequest q s = .next t) :
    Presented q s (checkedCode q s) t := by
  obtain ⟨u, hu, hp⟩ := runRequest_presented q s
  cases hu.symm.trans h
  exact hp

/-! ### What the outcome shows: RSTAT.CODE, FAULT and FCAUSE -/

theorem Reports.code {s t : State} {i : Instr} {code : Code} (h : Reports s i code t) :
    statusCode t.rstat = codeBits code := by
  cases h with
  | finError hm he => exact (finishDecode_answered_error he).code
  | finDec hm he => exact (finishDecode_answered_ok he).code
  | seqErrEblk | seqErrDblk | seqErrFin | posOvf | storedError | invalidSymbol | stat | senc | sdec | eblk | dblk
  | finEnc | lene | lenb => exact statusCode_packStatus ..

theorem Presented.code {q : Request} {s t : State} {code : Code} (h : Presented q s code t) :
    statusCode t.rstat = codeBits code := by
  cases h with
  | faulted => exact (respondFaulted_answered s).code
  | rejected c => exact (raiseFault_answered c s).code
  | command hf hd hr => exact hr.code

/-- The cause that a code sets in FCAUSE (rule R170). -/
def Code.cause : Code → Option FaultCause
  | .violation c => some c
  | .ok => none
  | .invalidInput => none
  | .faulted => none

/-- The outcome's FAULT and FCAUSE are those of the code: the fault action's for a violation, else those from before. -/
structure SetsFault (s : State) (code : Code) (t : State) : Prop where
  fault : t.fault = (code.cause.isSome || s.fault)
  fcause : t.fcause = code.cause.or s.fcause

/-- FIN of a decode stream clears the stream registers and nothing else. -/
theorem finishDecode_fault (s : State) :
    (finishDecode s).fault = s.fault ∧ (finishDecode s).fcause = s.fcause := by
  unfold finishDecode
  split <;> exact ⟨rfl, rfl⟩

theorem Reports.setsFault {s t : State} {i : Instr} {code : Code} (h : Reports s i code t) : SetsFault s code t := by
  cases h with
  | finError | finDec => exact ⟨(finishDecode_fault s).1, (finishDecode_fault s).2⟩
  | seqErrEblk | seqErrDblk | seqErrFin | posOvf | storedError | invalidSymbol | stat | senc | sdec | eblk | dblk
  | finEnc | lene | lenb => exact ⟨rfl, rfl⟩

theorem Presented.setsFault {q : Request} {s t : State} {code : Code} (h : Presented q s code t) :
    SetsFault s code t := by
  cases h with
  | faulted | rejected => exact ⟨rfl, rfl⟩
  | command hf hd hr => exact hr.setsFault

/-! ### The cases of a violation and of INVALID_INPUT -/

/-- Rule R174: whichever check finds the violation, the next state is that of the fault action. -/
theorem Presented.eq_raiseFault {q : Request} {s t : State} {c : FaultCause} (h : Presented q s (.violation c) t) :
    t = raiseFault c s := by
  cases h with
  | rejected => rfl
  | command hf hd hr => cases hr <;> rfl

/-- Everything a presented word that decodes does when it gets past the check of FAULT. -/
theorem Presented.reports {q : Request} {s t : State} {i : Instr} {code : Code} (h : Presented q s code t)
    (hd : decodeRequest q = .ok i) (hcode : code ≠ .faulted) : Reports s i code t := by
  cases h with
  | faulted => exact absurd rfl hcode
  | rejected c hf hd' => cases hd'.symm.trans hd
  | command hf hd' hr =>
    cases hd'.symm.trans hd
    exact hr

/-- INVALID_INPUT comes from DBLK or FIN. -/
theorem Presented.invalidInput_cases {q : Request} {s t : State} (h : Presented q s .invalidInput t) :
    (∃ c d, decodeRequest q = .ok (.dblk c d) ∧ Reports s (.dblk c d) .invalidInput t) ∨
      (decodeRequest q = .ok .fin ∧ s.mode = .dec ∧ s.err = true ∧ t = finishDecode s) := by
  cases h with
  | command hf hd hr =>
    cases hr with
    | storedError c d hm he => exact .inl ⟨c, d, hd, .storedError c d hm he⟩
    | invalidSymbol c d e hm he ho hi => exact .inl ⟨c, d, hd, .invalidSymbol c d e hm he ho hi⟩
    | finError hm he => exact .inr ⟨hd, hm, he, rfl⟩

/-- What a DBLK that reports INVALID_INPUT leaves and shows: the error stays or becomes set, and the response is the
error's (rules R131 and R133). -/
structure ShowsError (t : State) : Prop where
  mode : t.mode = .dec
  err : t.err = true
  rdata : t.rdata = t.epos
  ebyte : statusEbyte t.rstat = t.ebyte

/-- The error of `t` is the leftmost invalid symbol of the group at POS (rule R131). -/
def HoldsLeftmostError (s : State) (cnt : BitVec 4) (din : Word) (t : State) : Prop :=
  ∃ e : Fin 8, e.val < cnt.toNat ∧ inv (lane din e) = none ∧ (∀ j : Fin 8, j < e → inv (lane din j) ≠ none) ∧
    t.epos.toNat = s.pos.toNat + e.val ∧ t.ebyte = lane din e

namespace Reports

variable {s t : State} {cnt : BitVec 4} {din : Word} (h : Reports s (.dblk cnt din) .invalidInput t)
include h

theorem showsError : ShowsError t := by
  cases h with
  | storedError _ _ hm he => exact ⟨hm, he, rfl, (reportStoredError_answered s).ebyte⟩
  | invalidSymbol _ _ e hm => exact ⟨hm, rfl, rfl, (rejectGroup_answered e _ s).ebyte⟩

theorem eq_reportStoredError (he : s.err = true) : t = reportStoredError s := by
  cases h with
  | storedError => rfl
  | invalidSymbol _ _ _ _ he' => exact absurd (he'.symm.trans he) (by decide)

theorem holdsLeftmostError (he : s.err = false) : HoldsLeftmostError s cnt din t := by
  cases h with
  | storedError _ _ _ he' => exact absurd (he'.symm.trans he) (by decide)
  | invalidSymbol _ _ e _ _ ho hi =>
    obtain ⟨hlt, hinv, hleast⟩ := firstInvalid_eq_some_iff.mp hi
    exact ⟨e, hlt, hinv, hleast, toNat_add_of_le_posMax (by omega), rfl⟩

end Reports

/-! ### The rows of rule R170's table -/

/-- The data of a command that is OK (rule R170's first row). -/
structure OkData (q : Request) (s t : State) : Prop where
  stat : decodeRequest q = .ok .stat → t.rdata = s.pos
  opens : decodeRequest q = .ok .senc ∨ decodeRequest q = .ok .sdec → t.rdata = 0
  eblk : ∀ c d, decodeRequest q = .ok (.eblk c d) → t.rdata = (encBlock d c.toNat).1
  dblk : ∀ c d, decodeRequest q = .ok (.dblk c d) → decBlock d c.toNat = .ok t.rdata (kDec c.toNat)
  finEnc : decodeRequest q = .ok .fin → s.mode = .enc → t.rdata = BitVec.ofNat 64 (encodedLen s.pos.toNat)
  finDec : decodeRequest q = .ok .fin → s.mode = .dec → t.rdata = BitVec.ofNat 64 (decodedLen s.pos.toNat)
  lene : ∀ n, decodeRequest q = .ok (.lene n) → t.rdata = BitVec.ofNat 64 (encodedLen n.toNat)
  lenb : ∀ n, decodeRequest q = .ok (.lenb n) → t.rdata = BitVec.ofNat 64 (bufferLen n.toNat)

theorem Presented.okData {q : Request} {s t : State} (h : Presented q s .ok t) : OkData q s t where
  stat hd := by cases h.reports hd nofun; rfl
  opens hd := by
    obtain hd | hd := hd
    · cases h.reports hd nofun; rfl
    · cases h.reports hd nofun; rfl
  eblk c d hd := by cases h.reports hd nofun; rfl
  dblk c d hd := by
    cases h.reports hd nofun with
    | dblk _ _ _ _ hout => exact hout
  finEnc hd hm := by
    cases h.reports hd nofun with
    | finEnc => rfl
    | finDec hm' => exact absurd (hm'.symm.trans hm) (by decide)
  finDec hd hm := by
    cases h.reports hd nofun with
    | finEnc hm' => exact absurd (hm'.symm.trans hm) (by decide)
    | finDec _ he => exact (finishDecode_answered_ok he).rdata
  lene n hd := by cases h.reports hd nofun; rfl
  lenb n hd := by cases h.reports hd nofun; rfl

section Violation

variable {q : Request} {s t : State}

theorem Presented.violation_answered {c : FaultCause} (h : Presented q s (.violation c) t) :
    Answered { s with fault := true, fcause := some c } t (.violation c) 0 0 false 0 :=
  h.eq_raiseFault ▸ raiseFault_answered c s

theorem Presented.violation_fcause {c : FaultCause} (h : Presented q s (.violation c) t) :
    statusFcause t.rstat = causeBits c :=
  h.eq_raiseFault ▸ (raiseFault_answered c s).fcause

/-- No check on a command gives ILLEGAL_CMD. -/
theorem Presented.decode_of_illegalCmd (h : Presented q s (.violation .illegalCmd) t) :
    decodeRequest q = .error .illegalCmd := by
  cases h with
  | rejected _ _ hd => exact hd
  | command _ _ hr => cases hr

/-- No check on a command gives BAD_COUNT: the decoder has made it. -/
theorem Presented.decode_of_badCount (h : Presented q s (.violation .badCount) t) :
    decodeRequest q = .error .badCount := by
  cases h with
  | rejected _ _ hd => exact hd
  | command _ _ hr => cases hr

theorem fields_of_illegalCmd (h : decodeRequest q = .error .illegalCmd) :
    8 ≤ (opcField q.cmd).toNat ∨ (cntField q.cmd ≠ 0 ∧ opcField q.cmd ≠ 3 ∧ opcField q.cmd ≠ 4) := by
  obtain ⟨-, hfields⟩ | ⟨hc, -⟩ := decodeCmd_error_cases h
  · exact hfields
  · cases hc

theorem fields_of_badCount (h : decodeRequest q = .error .badCount) :
    (opcField q.cmd = 3 ∧ ¬ (1 ≤ (cntField q.cmd).toNat ∧ (cntField q.cmd).toNat ≤ 5)) ∨
      (opcField q.cmd = 4 ∧ ¬ (1 ≤ (cntField q.cmd).toNat ∧ (cntField q.cmd).toNat ≤ 8)) := by
  obtain ⟨hc, -⟩ | ⟨-, hfields⟩ := decodeCmd_error_cases h
  · cases hc
  · exact hfields

/-- The decoder names only its own two faults. -/
theorem cause_of_decode_error {c : FaultCause} (h : decodeRequest q = .error c) : c = .illegalCmd ∨ c = .badCount :=
  (decodeCmd_error_cases h).imp And.left And.left

theorem Presented.seqErr_cases (h : Presented q s (.violation .seqErr) t) :
    ((∃ c d, decodeRequest q = .ok (.eblk c d)) ∧ (s.mode ≠ .enc ∨ s.final = true)) ∨
      ((∃ c d, decodeRequest q = .ok (.dblk c d)) ∧ (s.mode ≠ .dec ∨ s.final = true)) ∨
      (decodeRequest q = .ok .fin ∧ s.mode = .idle) := by
  cases h with
  | rejected _ _ hd => simpa using cause_of_decode_error hd
  | command _ hd hr =>
    cases hr with
    | seqErrEblk c d hseq => exact .inl ⟨⟨c, d, hd⟩, hseq⟩
    | seqErrDblk c d hseq => exact .inr (.inl ⟨⟨c, d, hd⟩, hseq⟩)
    | seqErrFin hm => exact .inr (.inr ⟨hd, hm⟩)

theorem Presented.posOvf_cases (h : Presented q s (.violation .posOvf) t) :
    ∃ i, decodeRequest q = .ok i ∧ ((∃ c d, i = .eblk c d) ∨ ∃ c d, i = .dblk c d) ∧
      s.pos.toNat + groupCount i > Config.posMax := by
  cases h with
  | rejected _ _ hd => simpa using cause_of_decode_error hd
  | command _ hd hr =>
    cases hr with
    | posOvf _ hi ho => exact ⟨_, hd, hi, ho⟩

end Violation

/-- Rule R170's row of INVALID_INPUT: the error is the one the stream holds, or the first of its group. -/
theorem Presented.invalidInput_records {q : Request} {s t : State} (h : Presented q s .invalidInput t) :
    (∃ c d, decodeRequest q = .ok (.dblk c d) ∧ ShowsError t ∧
      (s.err = true → t.epos = s.epos ∧ t.ebyte = s.ebyte) ∧ (s.err = false → HoldsLeftmostError s c d t)) ∨
    (decodeRequest q = .ok .fin ∧ s.mode = .dec ∧ s.err = true ∧ t.rdata = s.epos ∧ statusEbyte t.rstat = s.ebyte) := by
  obtain ⟨c, d, hd, hr⟩ | ⟨hd, hm, he, rfl⟩ := h.invalidInput_cases
  · refine .inl ⟨c, d, hd, hr.showsError, fun he => ?_, hr.holdsLeftmostError⟩
    cases hr.eq_reportStoredError he
    exact ⟨rfl, rfl⟩
  · have ha := finishDecode_answered_error he
    exact .inr ⟨hd, hm, he, ha.rdata, ha.ebyte⟩

theorem eq_invalidInput_of_codeBits {code : Code} (h : codeBits code = codeBits .invalidInput) :
    code = .invalidInput := by
  cases code with
  | invalidInput => rfl
  | ok | faulted => exact absurd h (by decide)
  | violation c => cases c <;> exact absurd h (by decide)

/-! ### The error of a decode stream stays (rules R133 and R171) -/

/-- The stream is a decode stream with the error of `s`. -/
structure KeepsError (s t : State) : Prop where
  mode : t.mode = .dec
  err : t.err = true
  epos : t.epos = s.epos
  ebyte : t.ebyte = s.ebyte

/-- With an error, every command but FIN, SENC and SDEC is a query, a fault, or a DBLK that reports the error again. -/
theorem Reports.keepsError {s t : State} {i : Instr} {code : Code} (h : Reports s i code t) (hm : s.mode = .dec)
    (he : s.err = true) (hfin : i ≠ .fin) (hsenc : i ≠ .senc) (hsdec : i ≠ .sdec) : KeepsError s t := by
  cases h with
  | seqErrEblk | seqErrDblk | posOvf | storedError | stat | lene | lenb => exact ⟨hm, he, rfl, rfl⟩
  | seqErrFin | finError | finEnc | finDec => exact absurd rfl hfin
  | senc => exact absurd rfl hsenc
  | sdec => exact absurd rfl hsdec
  | eblk _ _ henc => exact absurd (henc.symm.trans hm) (by decide)
  | invalidSymbol _ _ _ _ herr | dblk _ _ _ herr => exact absurd (herr.symm.trans he) (by decide)

theorem Presented.keepsError {q : Request} {s t : State} {code : Code} (h : Presented q s code t) (hm : s.mode = .dec)
    (he : s.err = true) (hfin : decodeRequest q ≠ .ok .fin) (hsenc : decodeRequest q ≠ .ok .senc)
    (hsdec : decodeRequest q ≠ .ok .sdec) : KeepsError s t := by
  cases h with
  | faulted | rejected => exact ⟨hm, he, rfl, rfl⟩
  | command hf hd hr =>
    rw [hd] at hfin hsenc hsdec
    exact hr.keepsError hm he (ne_of_apply_ne _ hfin) (ne_of_apply_ne _ hsenc) (ne_of_apply_ne _ hsdec)

/-! ### DIN decides no fault (rule R173) -/

/-- Only DBLK's last check reads DIN, and neither of its outcomes is a fault. -/
theorem cause_commandCode_withDin (i : Instr) (din : Word) (s : State) :
    (commandCode (i.withDin din) s).cause = (commandCode i s).cause := by
  cases i with
  | stat | senc | sdec | eblk | fin | lene | lenb => rfl
  | dblk cnt d =>
    have hsame : Code.invalidInput.cause = Code.ok.cause := rfl
    simp only [Instr.withDin, commandCode, apply_ite Code.cause, hsame, ite_self]

theorem cause_checkedCode_din (cmd : CmdWord) (d e : Word) (s : State) :
    (checkedCode { cmd := cmd, din := d } s).cause = (checkedCode { cmd := cmd, din := e } s).cause := by
  have hdin : decodeRequest { cmd := cmd, din := e } =
      (decodeRequest { cmd := cmd, din := d }).map (Instr.withDin e) := (decodeCmd_map_withDin cmd d e).symm
  unfold checkedCode
  rw [hdin]
  split
  next => rfl
  next =>
    cases decodeRequest { cmd := cmd, din := d } with
    | error c => rfl
    | ok i => exact (cause_commandCode_withDin i e s).symm

/-! ### The statements -/

/-- Settles O39: whichever check finds the violation, the next state is that of the fault action. -/
theorem faultActionIsPrecise : Obligations.FaultActionIsPrecise := by
  intro q s c hcode
  obtain ⟨t, ht, hp⟩ := runRequest_presented q s
  rw [hcode] at hp
  exact ⟨t, ht, hp.violation_answered⟩

/-- Settles O40: the first check of every word is on FAULT, and the host's only other action is RST. -/
theorem faultedUnitRefusesEveryCommand : Obligations.FaultedUnitRefusesEveryCommand := by
  refine ⟨fun q s hf => ?_, fun a s t hf h => ?_⟩
  · have ha := respondFaulted_answered s
    exact ⟨_, runRequest_of_fault hf q, ha, rfl, ha.fcause, ha.fault.trans hf⟩
  · cases a with
    | command q =>
      cases (runRequest_of_fault hf q).symm.trans h
      exact .inl ⟨hf, rfl⟩
    | rst o => exact .inr ⟨o, rfl⟩

/-- Settles O41: the outcome meets the code of the check table, and a DBLK reports the stored error or the least lane
its scan finds. -/
theorem checksApplyInOrder : Obligations.ChecksApplyInOrder := by
  intro q s
  obtain ⟨t, ht, hp⟩ := runRequest_presented q s
  refine ⟨t, ht, hp.code, fun cnt din hd hcode => ?_⟩
  rw [hcode] at hp
  have hr := hp.reports hd nofun
  refine ⟨fun he => ?_, fun he => ?_⟩
  · rw [hr.eq_reportStoredError he]
    exact reportStoredError_answered s
  · obtain ⟨e, hlt, hinv, hleast, hpos, hbyte⟩ := hr.holdsLeftmostError he
    obtain ⟨-, -, hdata, hshown⟩ := hr.showsError
    exact ⟨e, hlt, hinv, hleast, hdata ▸ hpos, hshown.trans hbyte⟩

/-- Settles O42, row by row of rule R170's table. -/
theorem resultCodesAndRecords : Obligations.ResultCodesAndRecords := by
  intro q s
  obtain ⟨t, ht, hp⟩ := runRequest_presented q s
  have hcode := hp.code
  refine ⟨t, ht, fun hc => ?_, fun hc => ?_, fun hc => ?_, fun hc => ?_, fun hc => ?_, fun hc => ?_, fun hc => ?_,
    hcode ▸ codeBits_le _⟩
  all_goals rw [hc] at hp hcode
  · obtain ⟨hstat, hopens, heblk, hdblk, hfinEnc, hfinDec, hlene, hlenb⟩ := hp.okData
    exact ⟨hcode, hstat, hopens, heblk, hdblk, hfinEnc, hfinDec, hlene, hlenb⟩
  · refine ⟨hcode, hp.invalidInput_records.imp_left ?_⟩
    rintro ⟨c, d, hd, ⟨-, -, hdata, hbyte⟩, hstored, hfound⟩
    refine ⟨c, d, hd, hdata, hbyte, hstored, fun he => ?_⟩
    obtain ⟨e, hlt, hinv, hleast, hpos, hlane⟩ := hfound he
    exact ⟨e, hlt, hpos, hlane, hinv, hleast⟩
  · exact ⟨hcode, hp.violation_fcause, hp.violation_answered, fields_of_illegalCmd hp.decode_of_illegalCmd⟩
  · exact ⟨hcode, hp.violation_fcause, hp.violation_answered, fields_of_badCount hp.decode_of_badCount⟩
  · exact ⟨hcode, hp.violation_fcause, hp.violation_answered, hp.seqErr_cases⟩
  · exact ⟨hcode, hp.violation_fcause, hp.violation_answered, hp.posOvf_cases⟩
  · cases hp with
    | faulted hf => exact ⟨hcode, hf, respondFaulted_answered s, rfl⟩
    | command _ _ hr => cases hr

/-- Settles O43: the codes tell INVALID_INPUT apart, only DBLK and FIN report it, and no other command than FIN, SENC
and SDEC writes the error of a stream that has one. -/
theorem invalidInputIsNoFault : Obligations.InvalidInputIsNoFault := by
  refine ⟨fun q s t h hshown => ?_, fun q s t h hm he hfin hsenc hsdec => ?_, fun s hf hm he => ?_⟩
  · have hp := presented_of_runRequest h
    rw [eq_invalidInput_of_codeBits (hp.code.symm.trans hshown)] at hp
    have hf : s.fault = false := by
      cases hp with
      | command hf => exact hf
    obtain ⟨hfault, hcause⟩ := hp.setsFault
    refine ⟨hfault.trans hf, hf, hcause, ?_⟩
    obtain ⟨c, d, hd, hr⟩ | ⟨hd, -⟩ := hp.invalidInput_cases
    · exact .inl ⟨⟨c, d, hd⟩, hr.showsError.mode, hr.showsError.err⟩
    · exact .inr hd
  · obtain ⟨hmode, herr, hepos, hebyte⟩ := (presented_of_runRequest h).keepsError hm he hfin hsenc hsdec
    exact ⟨hmode, herr, hepos, hebyte⟩
  · have ha := finishDecode_answered_error he
    exact ⟨_, exec_fin_dec hf hm, ha.code, ha.rdata, ha.ebyte⟩

/-- Settles O44: FAULT and FCAUSE follow from the code's cause, which DIN does not change. -/
theorem dataValuesNeverFault : Obligations.DataValuesNeverFault := by
  intro cmd d e s
  obtain ⟨t, ht, hp⟩ := runRequest_presented { cmd := cmd, din := d } s
  obtain ⟨u, hu, hp'⟩ := runRequest_presented { cmd := cmd, din := e } s
  have hcause := cause_checkedCode_din cmd d e s
  exact ⟨t, u, ht, hu, by rw [hp.setsFault.fault, hp'.setsFault.fault, hcause],
    by rw [hp.setsFault.fcause, hp'.setsFault.fcause, hcause]⟩

end Sys2Proof.Machine

/-! ## Reset and the turns of the unit: the statements on 70_reset_and_hazards.md

A step is one turn of the host's list: idle, a command, or RST. What a command reports from the reset state is read off
the check table of rule R176. -/

namespace Sys2Proof.Machine

/-! ### Turns of the unit (rules R200 and R209) -/

/-- Rule R209: every turn leads to a next state. -/
theorem step_next (s : State) : ∃ t, step s = .next t := by
  cases hh : s.host with
  | nil => exact ⟨s, step_of_idle hh⟩
  | cons a rest =>
    cases a with
    | command q =>
      obtain ⟨t, ht, -⟩ := runRequest_isResponse q { s with host := rest }
      exact ⟨t, (step_of_command hh).trans ht⟩
    | rst o => exact ⟨_, step_of_rst hh⟩

/-- Rules R175 and R200: a faulted unit stays faulted over every turn but RST. -/
theorem fault_or_rst_of_step {s t : State} (h : step s = .next t) (hf : s.fault = true) :
    t.fault = true ∨ ∃ o rest, s.host = .rst o :: rest := by
  obtain ⟨-, rfl⟩ | ⟨_, _, -, -, rfl⟩ | ⟨_, _, _, -, hnf, -⟩ | ⟨_, _, _, -, hnf, -⟩ | ⟨o, rest, hh, -⟩ := step_cases h
  · exact .inl hf
  · exact .inl hf
  · cases hf.symm.trans hnf
  · cases hf.symm.trans hnf
  · exact .inr ⟨o, rest, hh⟩

/-! ### The first command after reset (rule R201) -/

/-- The first command shows the code of the check table and sets FAULT exactly for a violation. -/
theorem exec_reset_shows {i : Instr} {code : Code} (hwf : i.wellFormed = true) (hcode : commandCode i State.reset = code) :
    ∃ t, exec i State.reset = .next t ∧ statusCode t.rstat = codeBits code ∧ t.fault = code.cause.isSome := by
  obtain ⟨t, ht, hr⟩ := exec_reports (s := State.reset) rfl hwf
  rw [hcode] at hr
  exact ⟨t, ht, hr.code, hr.setsFault.fault.trans (Bool.or_false _)⟩

/-! ### The statements -/

/-- Settles O7: the reset turn by its equation, and no other turn clears FAULT. -/
theorem rstLeadsToResetAndAloneClearsFault : Obligations.RstLeadsToResetAndAloneClearsFault := by
  refine ⟨fun s o rest hh => ⟨_, step_of_rst hh, rfl⟩, fun s t h hf hclear => ?_⟩
  exact (fault_or_rst_of_step h hf).resolve_left (by simp [hclear])

/-- Settles O50: each turn and each command has its next state. -/
theorem everyStepCompletes : Obligations.EveryStepCompletes := ⟨step_next, exec_next⟩

/-- Settles O8: the check table gives OK for the five commands and SEQ_ERR for the others, since no stream is open. -/
theorem onlyFiveCommandsCompleteFromReset : Obligations.OnlyFiveCommandsCompleteFromReset := by
  refine ⟨step_of_idle rfl, rfl, fun i hi => ?_, fun i hwf hi => ?_⟩
  · obtain ⟨hwf, hcode⟩ : i.wellFormed = true ∧ commandCode i State.reset = .ok := by
      obtain rfl | rfl | rfl | ⟨n, rfl⟩ | ⟨n, rfl⟩ := hi <;> exact ⟨rfl, rfl⟩
    exact exec_reset_shows hwf hcode
  · have hcode : commandCode i State.reset = .violation .seqErr := by
      obtain ⟨c, d, rfl⟩ | ⟨c, d, rfl⟩ | rfl := hi <;> rfl
    exact exec_reset_shows hwf hcode

end Sys2Proof.Machine
